-- ==== Sys2Proof/Word.lean ====
section
/-! DEFINITION. The word types of the block: bytes, 16-bit words, and the operand fields of an
instruction word (00_scope.md R7, R8; 30_encoding.md R83). -/

namespace Sys2Proof

/-- A general register's value, a timer's value, a memory byte: 8 bits. -/
abbrev Byte := BitVec 8

/-- An instruction word, `I`, `PC` or a return address: 16 bits. -/
abbrev Word := BitVec 16

/-- A register field `x` or `y`: one of V0 to VF. -/
abbrev Reg := BitVec 4

/-- A key 0x0 to 0xF of the keypad. -/
abbrev Key := BitVec 4

/-- A 4-bit field that names no register: a sprite height, a sub-opcode, an ignored nibble. -/
abbrev Nibble := BitVec 4

/-- The 12-bit address operand `nnn`. -/
abbrev Addr := BitVec 12

end Sys2Proof
end

