-- ==== Sys2Proof/Syntax.lean ====
section
/-! DEFINITION. The instructions: one constructor for each row of spec/opcode_table.json
(30_encoding.md R95). Ignored nibbles (R94) are kept as the operand `z`, as the table's rows keep
them, so that a word can be read back from its instruction. -/

namespace Sys2Proof

/-- The 35 instruction variants of base CHIP-8, in the order of the opcode table. -/
inductive Instr where
  /-- CLS, 0x00E0: clear the display (R251). -/
  | cls
  /-- RET, 0x00EE: return from subroutine (R140). -/
  | ret
  /-- SYS nnn, 0x0nnn: a no-op (R141). -/
  | sys (nnn : Addr)
  /-- JMP nnn, 0x1nnn (R142). -/
  | jmp (nnn : Addr)
  /-- CALL nnn, 0x2nnn (R143). -/
  | call (nnn : Addr)
  /-- SKIP.EQ Vx, #nn, 0x3xnn (R161). -/
  | skipEqImm (x : Reg) (nn : Byte)
  /-- SKIP.NE Vx, #nn, 0x4xnn (R162). -/
  | skipNeImm (x : Reg) (nn : Byte)
  /-- SKIP.EQ Vx, Vy, 0x5xyz, `z` ignored (R163, R91). -/
  | skipEqReg (x y : Reg) (z : Nibble)
  /-- MOV Vx, #nn, 0x6xnn (R181). -/
  | movImm (x : Reg) (nn : Byte)
  /-- ADD Vx, #nn, 0x7xnn (R182). -/
  | addImm (x : Reg) (nn : Byte)
  /-- MOV Vx, Vy, 0x8xy0 (R183). -/
  | movReg (x y : Reg)
  /-- OR Vx, Vy, 0x8xy1 (R184). -/
  | or (x y : Reg)
  /-- AND Vx, Vy, 0x8xy2 (R185). -/
  | and (x y : Reg)
  /-- XOR Vx, Vy, 0x8xy3 (R186). -/
  | xor (x y : Reg)
  /-- ADD Vx, Vy, 0x8xy4 (R187). -/
  | addReg (x y : Reg)
  /-- SUB Vx, Vy, 0x8xy5 (R188). -/
  | sub (x y : Reg)
  /-- SHR Vx, 0x8xz6, `z` ignored (R189, R94). -/
  | shr (x : Reg) (z : Nibble)
  /-- SUBN Vx, Vy, 0x8xy7 (R190). -/
  | subn (x y : Reg)
  /-- SHL Vx, 0x8xzE, `z` ignored (R191, R94). -/
  | shl (x : Reg) (z : Nibble)
  /-- SKIP.NE Vx, Vy, 0x9xyz, `z` ignored (R164, R91). -/
  | skipNeReg (x y : Reg) (z : Nibble)
  /-- MOV I, nnn, 0xAnnn (R220). -/
  | movI (nnn : Addr)
  /-- JMP V0, nnn, 0xBnnn (R144). -/
  | jmpV0 (nnn : Addr)
  /-- RND Vx, #nn, 0xCxnn (R250). -/
  | rnd (x : Reg) (nn : Byte)
  /-- DRAW Vx, Vy, n, 0xDxyn (R252). -/
  | draw (x y : Reg) (n : Nibble)
  /-- SKIP.KEY Vx, 0xEx9E (R271). -/
  | skipKey (x : Reg)
  /-- SKIP.NKEY Vx, 0xExA1 (R272). -/
  | skipNkey (x : Reg)
  /-- LD Vx, DT, 0xFx07 (R274). -/
  | ldVxDt (x : Reg)
  /-- LD Vx, K, 0xFx0A (R273). -/
  | ldVxK (x : Reg)
  /-- LD DT, Vx, 0xFx15 (R275). -/
  | ldDtVx (x : Reg)
  /-- LD ST, Vx, 0xFx18 (R276). -/
  | ldStVx (x : Reg)
  /-- ADD I, Vx, 0xFx1E (R221). -/
  | addI (x : Reg)
  /-- LD I, FONT(Vx), 0xFx29 (R222). -/
  | ldIFont (x : Reg)
  /-- STORE.BCD Vx, 0xFx33 (R223). -/
  | storeBcd (x : Reg)
  /-- STORE.REGS Vx, 0xFx55 (R224). -/
  | storeRegs (x : Reg)
  /-- LOAD.REGS Vx, 0xFx65 (R225). -/
  | loadRegs (x : Reg)
  deriving DecidableEq, Repr

end Sys2Proof
end

