-- ==== Sys2Proof/WellFormed.lean ====
section
/-! DEFINITION. Which instructions some word stands for. The operand fields carry their widths in
their types, so the one thing left to check is that SYS is never 0x00E0 or 0x00EE: those two words
are CLS and RET (30_encoding.md R86, R93). -/

namespace Sys2Proof

/-- The instruction is the reading of its own word (R86, R93). -/
def Instr.wf : Instr → Bool
  | .sys nnn => nnn != 0x0E0 && nnn != 0x0EE
  | .cls | .ret | .jmp _ | .call _ | .skipEqImm _ _ | .skipNeImm _ _ | .skipEqReg _ _ _ => true
  | .movImm _ _ | .addImm _ _ | .movReg _ _ | .or _ _ | .and _ _ | .xor _ _ | .addReg _ _ => true
  | .sub _ _ | .shr _ _ | .subn _ _ | .shl _ _ | .skipNeReg _ _ _ | .movI _ | .jmpV0 _ => true
  | .rnd _ _ | .draw _ _ _ | .skipKey _ | .skipNkey _ | .ldVxDt _ | .ldVxK _ | .ldDtVx _ => true
  | .ldStVx _ | .addI _ | .ldIFont _ | .storeBcd _ | .storeRegs _ | .loadRegs _ => true

end Sys2Proof
end

