-- ==== Sys2Proof/Decode.lean ====
section
/-! DEFINITION. The decoder (30_encoding.md R82 to R94, 40_cycle_and_dispatch.md R115, R116): a word
gives a descriptor, always; the descriptor selects an instruction or nothing. After it the encoder,
from the same formats (R85), and the two byte-level readers. -/

namespace Sys2Proof

/-- The decoder's output (R82, R115): the family nibble, the low 12 bits, the raw word. -/
structure Descriptor where
  family : Nibble
  operands : Addr
  raw : Word
  deriving DecidableEq, Repr

/-- Why bytes are no instruction. -/
inductive DecodeError where
  /-- A word of family 8, E or F whose sub-opcode selects nothing (R92): the block raises
  `InvalidOpcode` for it. Safe: it is the spec's own outcome. -/
  | invalidOpcode (raw : Word)
  /-- Fewer than the two bytes every instruction has (R80). Raised only by `decodeBytes`, which no
  step calls. Safe. -/
  | truncated
  deriving DecidableEq, Repr

/-- `op[15:12]` (R83). -/
def fieldFamily (op : Word) : Nibble := op.extractLsb' 12 4
/-- `x = op[11:8]` (R83). -/
def fieldX (op : Word) : Reg := op.extractLsb' 8 4
/-- `y = op[7:4]` (R83). -/
def fieldY (op : Word) : Reg := op.extractLsb' 4 4
/-- `n = op[3:0]` (R83). -/
def fieldN (op : Word) : Nibble := op.extractLsb' 0 4
/-- `nn = op[7:0]` (R83). -/
def fieldNN (op : Word) : Byte := op.extractLsb' 0 8
/-- `nnn = op[11:0]` (R83). -/
def fieldNNN (op : Word) : Addr := op.extractLsb' 0 12

/-- `Decode(op)`: total, no failure (R82, R115). -/
def describe (op : Word) : Descriptor where
  family := fieldFamily op
  operands := fieldNNN op
  raw := op

/-- Family 0x8 by the low nibble (R88). -/
def selectAlu (op : Word) : Except DecodeError Instr :=
  match (fieldN op).toNat with
  | 0x0 => .ok (.movReg (fieldX op) (fieldY op))
  | 0x1 => .ok (.or (fieldX op) (fieldY op))
  | 0x2 => .ok (.and (fieldX op) (fieldY op))
  | 0x3 => .ok (.xor (fieldX op) (fieldY op))
  | 0x4 => .ok (.addReg (fieldX op) (fieldY op))
  | 0x5 => .ok (.sub (fieldX op) (fieldY op))
  | 0x6 => .ok (.shr (fieldX op) (fieldY op))
  | 0x7 => .ok (.subn (fieldX op) (fieldY op))
  | 0xE => .ok (.shl (fieldX op) (fieldY op))
  | _ => .error (.invalidOpcode op)

/-- Family 0xE by the low byte (R89). -/
def selectKey (op : Word) : Except DecodeError Instr :=
  match (fieldNN op).toNat with
  | 0x9E => .ok (.skipKey (fieldX op))
  | 0xA1 => .ok (.skipNkey (fieldX op))
  | _ => .error (.invalidOpcode op)

/-- Family 0xF by the low byte (R90). -/
def selectMisc (op : Word) : Except DecodeError Instr :=
  match (fieldNN op).toNat with
  | 0x07 => .ok (.ldVxDt (fieldX op))
  | 0x0A => .ok (.ldVxK (fieldX op))
  | 0x15 => .ok (.ldDtVx (fieldX op))
  | 0x18 => .ok (.ldStVx (fieldX op))
  | 0x1E => .ok (.addI (fieldX op))
  | 0x29 => .ok (.ldIFont (fieldX op))
  | 0x33 => .ok (.storeBcd (fieldX op))
  | 0x55 => .ok (.storeRegs (fieldX op))
  | 0x65 => .ok (.loadRegs (fieldX op))
  | _ => .error (.invalidOpcode op)

/-- The family dispatch (R87). The family has 4 bits, so the last arm is family 0xF. -/
def selectFamily (d : Descriptor) : Except DecodeError Instr :=
  let op := d.raw
  match d.family.toNat with
  | 0x0 => .ok (.sys (fieldNNN op))
  | 0x1 => .ok (.jmp (fieldNNN op))
  | 0x2 => .ok (.call (fieldNNN op))
  | 0x3 => .ok (.skipEqImm (fieldX op) (fieldNN op))
  | 0x4 => .ok (.skipNeImm (fieldX op) (fieldNN op))
  | 0x5 => .ok (.skipEqReg (fieldX op) (fieldY op) (fieldN op))
  | 0x6 => .ok (.movImm (fieldX op) (fieldNN op))
  | 0x7 => .ok (.addImm (fieldX op) (fieldNN op))
  | 0x8 => selectAlu op
  | 0x9 => .ok (.skipNeReg (fieldX op) (fieldY op) (fieldN op))
  | 0xA => .ok (.movI (fieldNNN op))
  | 0xB => .ok (.jmpV0 (fieldNNN op))
  | 0xC => .ok (.rnd (fieldX op) (fieldNN op))
  | 0xD => .ok (.draw (fieldX op) (fieldY op) (fieldN op))
  | 0xE => selectKey op
  | _ => selectMisc op

/-- `Dispatch`'s choice of a handler (R116): the two literal words first (R86), then the family. -/
def select (d : Descriptor) : Except DecodeError Instr :=
  if d.raw = 0x00E0 then .ok .cls
  else if d.raw = 0x00EE then .ok .ret
  else selectFamily d

/-- The instruction a word stands for, or that it stands for none. -/
def decode (op : Word) : Except DecodeError Instr := select (describe op)

/-- The word of the big-endian pair of bytes at the head of a sequence (R57, R80). -/
def wordOfBytes (hi lo : Byte) : Word := hi ++ lo

/-- The decoder on bytes as memory holds them: the instruction and the bytes after it. -/
def decodeBytes : List Byte → Except DecodeError (Instr × List Byte)
  | hi :: lo :: rest =>
    match decode (wordOfBytes hi lo) with
    | .ok i => .ok (i, rest)
    | .error e => .error e
  | [_] => .error .truncated
  | [] => .error .truncated

/-- The word of an instruction (formats R85, map R86 to R90). -/
def encode : Instr → Word
  | .cls => 0x00E0
  | .ret => 0x00EE
  | .sys nnn => 0x0#4 ++ nnn
  | .jmp nnn => 0x1#4 ++ nnn
  | .call nnn => 0x2#4 ++ nnn
  | .skipEqImm x nn => 0x3#4 ++ x ++ nn
  | .skipNeImm x nn => 0x4#4 ++ x ++ nn
  | .skipEqReg x y z => 0x5#4 ++ x ++ y ++ z
  | .movImm x nn => 0x6#4 ++ x ++ nn
  | .addImm x nn => 0x7#4 ++ x ++ nn
  | .movReg x y => 0x8#4 ++ x ++ y ++ 0x0#4
  | .or x y => 0x8#4 ++ x ++ y ++ 0x1#4
  | .and x y => 0x8#4 ++ x ++ y ++ 0x2#4
  | .xor x y => 0x8#4 ++ x ++ y ++ 0x3#4
  | .addReg x y => 0x8#4 ++ x ++ y ++ 0x4#4
  | .sub x y => 0x8#4 ++ x ++ y ++ 0x5#4
  | .shr x z => 0x8#4 ++ x ++ z ++ 0x6#4
  | .subn x y => 0x8#4 ++ x ++ y ++ 0x7#4
  | .shl x z => 0x8#4 ++ x ++ z ++ 0xE#4
  | .skipNeReg x y z => 0x9#4 ++ x ++ y ++ z
  | .movI nnn => 0xA#4 ++ nnn
  | .jmpV0 nnn => 0xB#4 ++ nnn
  | .rnd x nn => 0xC#4 ++ x ++ nn
  | .draw x y n => 0xD#4 ++ x ++ y ++ n
  | .skipKey x => 0xE#4 ++ x ++ 0x9E#8
  | .skipNkey x => 0xE#4 ++ x ++ 0xA1#8
  | .ldVxDt x => 0xF#4 ++ x ++ 0x07#8
  | .ldVxK x => 0xF#4 ++ x ++ 0x0A#8
  | .ldDtVx x => 0xF#4 ++ x ++ 0x15#8
  | .ldStVx x => 0xF#4 ++ x ++ 0x18#8
  | .addI x => 0xF#4 ++ x ++ 0x1E#8
  | .ldIFont x => 0xF#4 ++ x ++ 0x29#8
  | .storeBcd x => 0xF#4 ++ x ++ 0x33#8
  | .storeRegs x => 0xF#4 ++ x ++ 0x55#8
  | .loadRegs x => 0xF#4 ++ x ++ 0x65#8

/-- The two bytes of a word, the high one at the lower address (R57). -/
def bytesOfWord (op : Word) : List Byte := [op.extractLsb' 8 8, op.extractLsb' 0 8]

/-- The one word of an instruction given as the opcode table numbers its bits: `w`, cut to the
`nbits` bits the row has, every bit above them 0. -/
def tableWord (nbits w : Nat) : Word := BitVec.ofNat 16 (w % 2 ^ nbits)

/-- What the decoder reads from an instruction given as the opcode table numbers its bits: its
bytes are laid out as memory holds them (big-endian, R57) and decoded. -/
def decodeTableWord (nbits w : Nat) : Option Instr :=
  match decodeBytes (bytesOfWord (tableWord nbits w)) with
  | .ok (i, _) => some i
  | .error _ => none

end Sys2Proof
end

