-- ==== Sys2Proof/Config.lean ====
section
/-! DEFINITION. What the implementation fixes (the parameters of 00_scope.md R6 that are not in
Machine/Font.lean) and the free values: the inputs of a tick for which the state's schedule lists
none. They have no body: no proof can know their value, so a claim that reads one holds for
every value (log entry 2). -/

namespace Sys2Proof.Config

/-- `MEM_SIZE` (R6, R50): the number of bytes of memory; addresses are 0x000 to 0xFFF. -/
def memSize : Nat := 4096

/-- `PROG_BASE` (R6, R342): where a ROM is loaded and where the first fetch is. -/
def progBase : Nat := 0x200

/-- `MAX_ROM` (R6, R341): the longest ROM, `MEM_SIZE - 0x200` bytes. -/
def maxRom : Nat := memSize - progBase

/-- `STACK_DEPTH` (R6, R29): how many return addresses the stack holds. -/
def stackDepth : Nat := 16

/-- The random byte of the tick of this number (R250, R316, decision D19: a free 8-bit draw per
tick under no law). -/
opaque freeRnd : Nat → Byte

/-- The keypad bitmask of the tick of this number (R33, R314). -/
opaque freeKeys : Nat → BitVec 16

/-- The key event of the tick of this number (R110, R314). -/
opaque freeKeyEvent : Nat → Option Key

/-- Whether the tick of this number carries the Clock's strobe (R315, R352, decision D26: the
schedule is a free input). -/
opaque freeTimerTick : Nat → Bool

end Sys2Proof.Config
end

