-- ==== Sys2Proof/Machine/State.lean ====
section
/-! DEFINITION. The machine's state as plain data: the tuple of 10_state.md R20, and two fields of
the model's own, `inputs` and `ticks`, that hold what comes from outside the block. -/

namespace Sys2Proof.Machine

/-- The loop driver's state (10_state.md R34). -/
inductive RunState where
  | running
  | waitingForKey
  | halted
  deriving DecidableEq, Repr

/-- The error kinds (60_exceptions.md R300); their codes are `errorCode` (Machine/Ops.lean). -/
inductive ErrorKind where
  /-- Code 1: CALL on a stack of 16 entries. -/
  | stackOverflow
  /-- Code 2: RET on an empty stack. -/
  | stackUnderflow
  /-- Code 3: a word of family 8, E or F that selects no instruction. -/
  | invalidOpcode
  /-- Code 4: a fetch or an access through `I` above 0xFFF. -/
  | memoryOutOfRange
  /-- Code 5: the ROM load of too long an image. No fault record ever holds it (R307): the load is
  refused (`Refusal.romTooLarge`) and no state exists. -/
  | romTooLarge
  deriving DecidableEq, Repr

/-- A fatal error as the host sees it (10_state.md R36, 60_exceptions.md R301): its kind, the
address the instruction was fetched from, the raw word, or none when the fetch itself failed. -/
structure FaultRecord where
  kind : ErrorKind
  pc : Word
  opcode : Option Word
  deriving DecidableEq, Repr

/-- The five inputs of one tick (40_cycle_and_dispatch.md R110). -/
structure TickInput where
  /-- Bit `k` is 1 when key `k` is held (10_state.md R33). -/
  keys : BitVec 16
  /-- The key of the tick's key-press event, if there is one. -/
  keyEvent : Option Key
  /-- The host asks the block to quit. -/
  quit : Bool
  /-- The Clock's 60 Hz strobe. -/
  timerTick : Bool
  /-- The random byte RND reads. -/
  rnd : Byte
  deriving DecidableEq, Repr

/-- The Display's pixels, `fb[px][py]` with `px` in 0..63 and `py` in 0..31, true meaning lit
(10_state.md R37). -/
abbrev Framebuffer := Vector (Vector Bool 32) 64

/-- Memory: the bytes that differ from their reset content, addresses strictly rising. What an
unlisted address reads as is `resetByte` (Machine/Font.lean). -/
abbrev Memory := List Host.Cell

/-- Everything the spec gives the block (R20), then the model's own two fields. -/
structure State where
  /-- V0 to VF (R21); VF is the flag (R22). -/
  regs : Vector Byte 16
  /-- The index register `I` (R24). -/
  i : Word
  /-- The program counter (R26): between ticks, the address of the next fetch. -/
  pc : Word
  /-- The return addresses, the most recently pushed first (R29). -/
  stack : List Word
  /-- The delay timer (R31). -/
  dt : Byte
  /-- The sound timer (R32). -/
  st : Byte
  /-- The 4096 bytes of memory (20_memory.md R50). -/
  mem : Memory
  /-- The Display's framebuffer (R37). -/
  fb : Framebuffer
  /-- The loop driver's state (R34). -/
  run : RunState
  /-- The register an FX0A wait will write (R35). -/
  waitX : Reg
  /-- The fatal error, once there has been one (R36). -/
  fault : Option FaultRecord
  /-- The model's own: the inputs of the coming ticks, the next tick's first (log entry 1). -/
  inputs : List TickInput
  /-- The model's own: how many ticks have been carried out, the number the free inputs of a tick
  are taken at (log entry 2). -/
  ticks : Nat
  deriving DecidableEq, Repr

/-- The reasons a step can stop the Lean machine with a fault. There are none: every fatal error of
the spec is an effect it describes (60_exceptions.md R301 to R303), so it is a NEXT state whose
`run` is `halted` and whose `fault` holds the record. -/
inductive Fault where
  deriving DecidableEq, Repr

/-- The reasons the model gives no next state. -/
inductive Refusal where
  /-- An instruction without a meaning. Raised by no arm of `exec`: every instruction has its
  meaning. Safe. -/
  | notModelled (mnemonic : String)
  /-- `RomTooLarge` (code 5, 60_exceptions.md R300, R307): raised by `loadRom` on an image longer
  than 3584 bytes, for which no initial state exists. No step raises it. Safe: it is the spec's own
  outcome (decision D24). -/
  | romTooLarge
  deriving DecidableEq, Repr

/-- The machine right after reset with nothing loaded (10_state.md R40, 70_reset_and_hazards.md
R340): memory reads as its reset content everywhere, the schedule lists no input. -/
def State.reset : State where
  regs := Vector.replicate 16 0
  i := 0
  pc := 0x200
  stack := []
  dt := 0
  st := 0
  mem := []
  fb := Vector.replicate 64 (Vector.replicate 32 false)
  run := .running
  waitX := 0
  fault := none
  inputs := []
  ticks := 0

end Sys2Proof.Machine
end

