-- ==== Sys2Proof/Machine/Font.lean ====
section
/-! DEFINITION. The built-in hexadecimal font (20_memory.md R69; 92_eei_decisions.md D9) and the
reset content of memory that follows from it (R40, R52, 70_reset_and_hazards.md R340). -/

namespace Sys2Proof.Machine

/-- `FONT_BASE` (00_scope.md R6, D9; log entry 4). -/
def fontBase : Nat := 0x050

/-- `FONT_GLYPH_BYTES` (R6): the bytes of one glyph. -/
def glyphBytes : Nat := 5

/-- The five rows of each digit's glyph, digits 0 to F (R69; the spec marks the bytes as general
knowledge, log entry 4). -/
def fontData : List Byte :=
  [0xF0, 0x90, 0x90, 0x90, 0xF0] ++ [0x20, 0x60, 0x20, 0x20, 0x70] ++
  [0xF0, 0x10, 0xF0, 0x80, 0xF0] ++ [0xF0, 0x10, 0xF0, 0x10, 0xF0] ++
  [0x90, 0x90, 0xF0, 0x10, 0x10] ++ [0xF0, 0x80, 0xF0, 0x10, 0xF0] ++
  [0xF0, 0x80, 0xF0, 0x90, 0xF0] ++ [0xF0, 0x10, 0x20, 0x40, 0x40] ++
  [0xF0, 0x90, 0xF0, 0x90, 0xF0] ++ [0xF0, 0x90, 0xF0, 0x10, 0xF0] ++
  [0xF0, 0x90, 0xF0, 0x90, 0x90] ++ [0xE0, 0x90, 0xE0, 0x90, 0xE0] ++
  [0xF0, 0x80, 0x80, 0x80, 0xF0] ++ [0xE0, 0x90, 0x90, 0x90, 0xE0] ++
  [0xF0, 0x80, 0xF0, 0x80, 0xF0] ++ [0xF0, 0x80, 0xF0, 0x80, 0x80]

/-- What memory holds at an address after reset with no ROM: the font, 0 elsewhere (R40, R52). It
is what an address the state's memory does not list reads as. -/
def resetByte (a : Nat) : Byte :=
  if fontBase ≤ a then fontData.getD (a - fontBase) 0 else 0

/-- The address of the glyph of a digit (44_index_memory.md R222). -/
def glyphAddress (d : Nat) : Nat := fontBase + glyphBytes * d

end Sys2Proof.Machine
end

