-- ==== Sys2Proof/Machine/Ops.lean ====
section
/-! DEFINITION. The named operations over registers, `PC`, the stack, memory and the timers, the
fetch, the ROM load, and the one shared operation that takes a fatal error. -/

namespace Sys2Proof.Machine

/-! ## Tick inputs (40_cycle_and_dispatch.md R110) -/

/-- The inputs of a tick for which the state's schedule lists none: every one a free value (log
entry 2), but no quit, which is a request the host has to make (log entry 1). -/
def unplannedInput (tick : Nat) : TickInput where
  keys := Config.freeKeys tick
  keyEvent := Config.freeKeyEvent tick
  quit := false
  timerTick := Config.freeTimerTick tick
  rnd := Config.freeRnd tick

/-- The inputs sampled at the start of the coming tick. -/
def State.now (s : State) : TickInput :=
  match s.inputs with
  | [] => unplannedInput s.ticks
  | t :: _ => t

/-- The tick is over: its inputs are used up (the model's own bookkeeping). -/
def State.popInput (s : State) : State :=
  { s with inputs := s.inputs.tail, ticks := s.ticks + 1 }

/-! ## General registers (10_state.md R21, 00_scope.md R9) -/

/-- `V[x]`. -/
def State.getV (s : State) (x : Reg) : Byte := s.regs[x.toNat]'x.isLt

/-- `V[x] <- b`. -/
def State.setV (s : State) (x : Reg) (b : Byte) : State :=
  { s with regs := s.regs.set x.toNat b x.isLt }

/-- `VF`, the flag register's number (R22). -/
def regVF : Reg := 0xF#4

/-- `V[k], V[k+1], … <- bs`, ascending, as LOAD.REGS writes them (44_index_memory.md R225). -/
def writeRegsFrom (k : Nat) (bs : List Byte) (r : Vector Byte 16) : Vector Byte 16 :=
  match bs with
  | [] => r
  | b :: rest => writeRegsFrom (k + 1) rest (r.setIfInBounds k b)

/-- `V[0..x]` in ascending order, as STORE.REGS reads them (R224). -/
def State.regsUpTo (s : State) (x : Reg) : List Byte := s.regs.toList.take (x.toNat + 1)

/-! ## Program counter and index register (20_memory.md R56) -/

/-- A value for `PC` or `I`: the exact result modulo 0x1000 (R8, R56). -/
def wrap12 (a : Nat) : Word := BitVec.ofNat 16 (a % 0x1000)

/-- `PC <- (PC + 2) mod 0x1000`: the fetch's increment (R114) and a skip's (R160). -/
def State.advance (s : State) : State := { s with pc := wrap12 (s.pc.toNat + 2) }

/-- `PC <- target`. -/
def State.setPc (s : State) (target : Word) : State := { s with pc := target }

/-- `I <- v`. -/
def State.setI (s : State) (v : Word) : State := { s with i := v }

/-! ## Stack (10_state.md R29) -/

/-- `push(v)`, or nothing on a stack that already holds 16 entries. -/
def State.push (s : State) (v : Word) : Option State :=
  if s.stack.length < Config.stackDepth then some { s with stack := v :: s.stack } else none

/-- `pop()`: the most recent entry and the rest, or nothing on an empty stack. -/
def State.pop (s : State) : Option (Word × State) :=
  match s.stack with
  | [] => none
  | v :: rest => some (v, { s with stack := rest })

/-! ## Memory (20_memory.md R50 to R62) -/

/-- The byte at an address of the array, listed or not. -/
def memGet (m : Memory) (a : Nat) : Byte :=
  match m with
  | [] => resetByte a
  | (k, v) :: rest => if k = a then v else memGet rest a

/-- Put a byte at an address, keeping the canonical form: addresses rise, and no entry holds its
address's reset content. -/
def memSet (m : Memory) (a : Nat) (b : Byte) : Memory :=
  match m with
  | [] => if b = resetByte a then [] else [(a, b)]
  | (k, v) :: rest =>
    if a < k then
      if b = resetByte a then (k, v) :: rest else (a, b) :: (k, v) :: rest
    else if a = k then
      if b = resetByte a then rest else (a, b) :: rest
    else (k, v) :: memSet rest a b

/-- The canonical form: addresses strictly rise, lie in the array, and no entry holds its address's
reset content. -/
abbrev Memory.wf (m : Memory) : Prop :=
  m.Pairwise (fun c d => c.1 < d.1) ∧ ∀ c ∈ m, c.1 < Config.memSize ∧ c.2 ≠ resetByte c.1

/-- `MemRead(a, 1)`: the byte, or nothing above 0xFFF, where the access raises `MemoryOutOfRange`
(00_scope.md R10, R54). -/
def State.memRead (s : State) (a : Nat) : Option Byte :=
  if a < Config.memSize then some (memGet s.mem a) else none

/-- Every byte of a block of `len` bytes from `base` is in memory; no sum wraps (R55, R62). A block
of no bytes is never out of range (45_random_display.md R252, R254). -/
def blockInRange (base len : Nat) : Bool := len == 0 || decide (base + len ≤ Config.memSize)

/-- The bytes at `base`, `base + 1`, …, ascending (R58). -/
def readBytes (m : Memory) (base len : Nat) : List Byte :=
  match len with
  | 0 => []
  | n + 1 => memGet m base :: readBytes m (base + 1) n

/-- Store bytes at `base`, `base + 1`, …, ascending (R58). -/
def writeBytes (m : Memory) (base : Nat) (bs : List Byte) : Memory :=
  match bs with
  | [] => m
  | b :: rest => writeBytes (memSet m base b) (base + 1) rest

/-- Read a block through `I`, checked whole before any byte is read (R55, R62). -/
def State.readBlock (s : State) (base len : Nat) : Option (List Byte) :=
  if blockInRange base len then some (readBytes s.mem base len) else none

/-- Write a block through `I`, checked whole before any byte is written (R55, R62). -/
def State.writeBlock (s : State) (base : Nat) (bs : List Byte) : Option State :=
  if blockInRange base bs.length then some { s with mem := writeBytes s.mem base bs } else none

/-! ## Fatal errors (60_exceptions.md R300 to R303, 40_cycle_and_dispatch.md R121) -/

/-- The code of an error kind (R300, decision D4). -/
def errorCode : ErrorKind → Nat
  | .stackOverflow => 1
  | .stackUnderflow => 2
  | .invalidOpcode => 3
  | .memoryOutOfRange => 4
  | .romTooLarge => 5

/-- Taking a fatal error, from the state BEFORE the fetch: nothing the instruction did is kept, so
`PC` is still the fetch address; that address and the raw word are recorded and the block halts
(R121, R301 to R303). There is no return from it (R304). -/
def State.raise (s : State) (kind : ErrorKind) (opcode : Option Word) : State :=
  { s with fault := some { kind := kind, pc := s.pc, opcode := opcode }, run := .halted }

/-! ## Fetch (40_cycle_and_dispatch.md R114) -/

/-- The word at `PC` and `PC + 1`, big-endian, or nothing when a byte of it is above 0xFFF. The
increment of `PC` is `State.advance`, the first thing every meaning does. -/
def State.fetch (s : State) : Option Word :=
  match s.memRead s.pc.toNat with
  | none => none
  | some hi =>
    match s.memRead (s.pc.toNat + 1) with
    | none => none
    | some lo => some (wordOfBytes hi lo)

/-! ## Timers (60_exceptions.md R310) -/

/-- One timer's countdown: one less, never below zero. -/
def countTimer (t : Byte) : Byte := if t.toNat > 0 then BitVec.ofNat 8 (t.toNat - 1) else t

/-- `TimerCountdown()`. -/
def State.countdown (s : State) : State := { s with dt := countTimer s.dt, st := countTimer s.st }

/-- One timer at the end of a tick: its counted-down value on the strobe, its old value without
one. A zero timer stays zero either way, whatever the strobe is (R310, R311). -/
def strobeTimer (strobe : Bool) (old counted : Byte) : Byte :=
  if old.toNat = 0 then old else if strobe then counted else old

/-- The timers at the end of a tick: `TimerCountdown()` when the tick carries the strobe
(40_cycle_and_dispatch.md R122). -/
def State.strobe (s : State) (strobe : Bool) : State :=
  { s with
    dt := strobeTimer strobe s.dt s.countdown.dt
    st := strobeTimer strobe s.st s.countdown.st }

/-- The tone output: on exactly while the sound timer is not zero (R312). -/
def State.tone (s : State) : Bool := s.st != 0

/-! ## Loading a ROM (70_reset_and_hazards.md R341, 60_exceptions.md R307) -/

/-- `load(bytes)`: the image is copied to 0x200; one longer than 3584 bytes is refused as
`RomTooLarge`, and no initial state exists. -/
def loadRom (rom : List Byte) (s : State) : Host.Outcome State Fault Refusal :=
  if rom.length ≤ Config.maxRom then .next { s with mem := writeBytes s.mem Config.progBase rom }
  else .refused .romTooLarge

/-- Reset with a ROM (R340), and the inputs the host will give the coming ticks. -/
def boot (rom : List Byte) (inputs : List TickInput) : Host.Outcome State Fault Refusal :=
  loadRom rom { State.reset with inputs := inputs }

/-- The bytes that lie in memory, of a sequence to be placed at `base`. -/
def clip (base : Nat) (bs : List Byte) : List Byte := bs.take (Config.memSize - base)

/-- Place the word of an instruction where the next tick fetches, and let that tick fetch: the block
is Running and the host does not quit in it (R110 to R113). -/
def State.placeWord (s : State) (op : Word) : State :=
  { s with
    mem := writeBytes s.mem s.pc.toNat (clip s.pc.toNat (bytesOfWord op))
    run := .running
    inputs :=
      match s.inputs with
      | [] => []
      | t :: rest => { t with quit := false } :: rest }

end Sys2Proof.Machine
end

