-- ==== Sys2Proof/Machine/Flags.lean ====
section
/-! DEFINITION. The one flag, VF (10_state.md R22, R38): how each flag-setting instruction computes
it, and the order in which result and flag are written (43_alu.md R180). -/

namespace Sys2Proof.Machine

/-- A Boolean in a register: 1 for true, 0 for false (00_scope.md R8). -/
def flagByte (b : Bool) : Byte := if b then 1 else 0

/-- Carry out of bit 7 of a sum (R187). -/
def carryFlag (vx vy : Byte) : Byte := flagByte (decide (vx.toNat + vy.toNat > 255))

/-- No borrow in `a - b` (R188, R190). -/
def noBorrowFlag (a b : Byte) : Byte := flagByte (decide (a.toNat ≥ b.toNat))

/-- The bit SHR shifts out (R189). -/
def shrFlag (vx : Byte) : Byte := flagByte (vx.getLsbD 0)

/-- The bit SHL shifts out (R191). -/
def shlFlag (vx : Byte) : Byte := flagByte (vx.getLsbD 7)

/-- Write the result first and the flag last, so that the flag stays when `x` is VF (R180 c). -/
def State.setResultFlag (s : State) (x : Reg) (result flag : Byte) : State :=
  (s.setV x result).setV regVF flag

end Sys2Proof.Machine
end

