-- ==== Sys2Proof/Machine/Alu.lean ====
section
/-! DEFINITION. Register moves and the 8-bit ALU (43_alu.md R180 to R191). A meaning
starts from the state before the fetch: `s.pc` is the fetch address, `s.advance` the state after the
fetch's increment (40_cycle_and_dispatch.md R114), and a fatal error is taken from `s` itself
(R121). Operands are read from `s`, before any write (R180 b); `BitVec 8` arithmetic is modulo 256
(R180 a). -/

namespace Sys2Proof.Machine

/-- MOV.imm (R181). -/
def execMovImm (x : Reg) (nn : Byte) (s : State) : Host.Outcome State Fault Refusal :=
  .next (s.advance.setV x nn)

/-- ADD.imm (R182): modulo 256, no flag. -/
def execAddImm (x : Reg) (nn : Byte) (s : State) : Host.Outcome State Fault Refusal :=
  .next (s.advance.setV x (s.getV x + nn))

/-- MOV.reg (R183). -/
def execMovReg (x y : Reg) (s : State) : Host.Outcome State Fault Refusal :=
  .next (s.advance.setV x (s.getV y))

/-- OR (R184): no flag. -/
def execOr (x y : Reg) (s : State) : Host.Outcome State Fault Refusal :=
  .next (s.advance.setV x (s.getV x ||| s.getV y))

/-- AND (R185): no flag. -/
def execAnd (x y : Reg) (s : State) : Host.Outcome State Fault Refusal :=
  .next (s.advance.setV x (s.getV x &&& s.getV y))

/-- XOR (R186): no flag. -/
def execXor (x y : Reg) (s : State) : Host.Outcome State Fault Refusal :=
  .next (s.advance.setV x (s.getV x ^^^ s.getV y))

/-- ADD.reg (R187): sum modulo 256, VF the carry. -/
def execAddReg (x y : Reg) (s : State) : Host.Outcome State Fault Refusal :=
  let vx := s.getV x
  let vy := s.getV y
  .next (s.advance.setResultFlag x (vx + vy) (carryFlag vx vy))

/-- SUB (R188): `Vx - Vy` modulo 256, VF the no-borrow flag. -/
def execSub (x y : Reg) (s : State) : Host.Outcome State Fault Refusal :=
  let vx := s.getV x
  let vy := s.getV y
  .next (s.advance.setResultFlag x (vx - vy) (noBorrowFlag vx vy))

/-- SHR (R189): `Vx` right by one, VF the bit shifted out; `y` is ignored (R94). -/
def execShr (x : Reg) (_z : Nibble) (s : State) : Host.Outcome State Fault Refusal :=
  let vx := s.getV x
  .next (s.advance.setResultFlag x (vx >>> 1) (shrFlag vx))

/-- SUBN (R190): `Vy - Vx` modulo 256, VF the no-borrow flag. -/
def execSubn (x y : Reg) (s : State) : Host.Outcome State Fault Refusal :=
  let vx := s.getV x
  let vy := s.getV y
  .next (s.advance.setResultFlag x (vy - vx) (noBorrowFlag vy vx))

/-- SHL (R191): `Vx` left by one, VF the bit shifted out; `y` is ignored (R94). -/
def execShl (x : Reg) (_z : Nibble) (s : State) : Host.Outcome State Fault Refusal :=
  let vx := s.getV x
  .next (s.advance.setResultFlag x (vx <<< 1) (shlFlag vx))

end Sys2Proof.Machine
end

