-- ==== Sys2Proof/Machine/Operands.lean ====
section
/-! DEFINITION. The operand forms (30_encoding.md R84): 8-bit immediates and registers are used as
they are; here are the forms that compute something: the 12-bit address, the font digit, the key
test, the held key, the decimal digits, the condition of a skip. -/

namespace Sys2Proof.Machine

/-- `zext_16(nnn)` (R84). -/
def addrWord (nnn : Addr) : Word := nnn.setWidth 16

/-- The computed-jump target `(V0 + nnn) mod 0x1000` (41_flow.md R144). -/
def State.jumpV0Target (s : State) (nnn : Addr) : Word := wrap12 ((s.getV 0#4).toNat + nnn.toNat)

/-- `(I + Vx) mod 0x1000` (44_index_memory.md R221). -/
def State.indexSum (s : State) (x : Reg) : Word := wrap12 (s.i.toNat + (s.getV x).toNat)

/-- The digit of `FONT(Vx)`: the low nibble of `Vx` (R222, decision D10; log entry 5). -/
def fontDigit (v : Byte) : Nat := (v &&& 0x0F).toNat

/-- Hundreds, tens and units of a byte (R223). -/
def bcdDigits (v : Byte) : List Byte :=
  [BitVec.ofNat 8 (v.toNat / 100), BitVec.ofNat 8 (v.toNat / 10 % 10),
    BitVec.ofNat 8 (v.toNat % 10)]

/-- `pressed(v)`: `v` names a key and that key is held (46_keys_timers.md R270, decision D11; log
entry 6). -/
def State.pressed (s : State) (v : Byte) : Bool :=
  decide (v.toNat ≤ 0xF) && s.now.keys.getLsbD v.toNat

/-- The lowest-numbered held key, if a key is held (R273, decision D12; log entry 7). -/
def lowestKey (keys : BitVec 16) : Option Key :=
  ((List.range 16).find? fun k => keys.getLsbD k).map (BitVec.ofNat 4)

/-- A skip: one more instruction word when the condition holds (42_skip.md R160). On entry `PC` is
the fetch address plus 2. -/
def State.skipIf (s : State) (c : Bool) : State :=
  { s with pc := if c then s.advance.pc else s.pc }

end Sys2Proof.Machine
end

