-- ==== Sys2Proof/Machine/Flow.lean ====
section
/-! DEFINITION. Control transfer and the system-call space (41_flow.md R140 to R144). A meaning
starts from the state before the fetch: `s.pc` is the fetch address, `s.advance` the state after the
fetch's increment (40_cycle_and_dispatch.md R114), and a fatal error is taken from `s` itself
(R121). -/

namespace Sys2Proof.Machine

/-- RET (R140): `PC <- pop()`; `StackUnderflow` on an empty stack. -/
def execRet (s : State) : Host.Outcome State Fault Refusal :=
  match s.advance.pop with
  | none => .next (s.raise .stackUnderflow (some (encode .ret)))
  | some (v, t) => .next (t.setPc v)

/-- SYS (R141): nothing but the fetch's increment. -/
def execSys (_nnn : Addr) (s : State) : Host.Outcome State Fault Refusal :=
  .next s.advance

/-- JMP (R142): `PC <- nnn`. -/
def execJmp (nnn : Addr) (s : State) : Host.Outcome State Fault Refusal :=
  .next (s.advance.setPc (addrWord nnn))

/-- CALL (R143): push the post-fetch `PC`, then `PC <- nnn`; `StackOverflow` on a full stack. -/
def execCall (nnn : Addr) (s : State) : Host.Outcome State Fault Refusal :=
  match s.advance.push s.advance.pc with
  | none => .next (s.raise .stackOverflow (some (encode (.call nnn))))
  | some t => .next (t.setPc (addrWord nnn))

/-- JMP.V0 (R144): `PC <- (V0 + nnn) mod 0x1000`. -/
def execJmpV0 (nnn : Addr) (s : State) : Host.Outcome State Fault Refusal :=
  .next (s.advance.setPc (s.jumpV0Target nnn))

end Sys2Proof.Machine
end

