-- ==== Sys2Proof/Machine/IndexMemory.lean ====
section
/-! DEFINITION. Index register and memory transfers (44_index_memory.md R220 to R225). A meaning
starts from the state before the fetch: `s.pc` is the fetch address, `s.advance` the state after the
fetch's increment (40_cycle_and_dispatch.md R114), and a fatal error is taken from `s` itself
(R121). A block is checked whole before anything moves (20_memory.md R62), and `I` stays as it
is. -/

namespace Sys2Proof.Machine

/-- MOV.I (R220). -/
def execMovI (nnn : Addr) (s : State) : Host.Outcome State Fault Refusal :=
  .next (s.advance.setI (addrWord nnn))

/-- ADD.I (R221): 12-bit wrap, no flag. -/
def execAddI (x : Reg) (s : State) : Host.Outcome State Fault Refusal :=
  .next (s.advance.setI (s.indexSum x))

/-- LD.I.FONT (R222): the glyph address of the digit. -/
def execLdIFont (x : Reg) (s : State) : Host.Outcome State Fault Refusal :=
  .next (s.advance.setI (BitVec.ofNat 16 (glyphAddress (fontDigit (s.getV x)))))

/-- STORE.BCD (R223): three decimal digits at `I`. -/
def execStoreBcd (x : Reg) (s : State) : Host.Outcome State Fault Refusal :=
  match s.advance.writeBlock s.i.toNat (bcdDigits (s.getV x)) with
  | none => .next (s.raise .memoryOutOfRange (some (encode (.storeBcd x))))
  | some t => .next t

/-- STORE.REGS (R224): V0 to Vx at `I`. -/
def execStoreRegs (x : Reg) (s : State) : Host.Outcome State Fault Refusal :=
  match s.advance.writeBlock s.i.toNat (s.regsUpTo x) with
  | none => .next (s.raise .memoryOutOfRange (some (encode (.storeRegs x))))
  | some t => .next t

/-- LOAD.REGS (R225): V0 to Vx from `I`; all bytes are read before a register is written. -/
def execLoadRegs (x : Reg) (s : State) : Host.Outcome State Fault Refusal :=
  match s.readBlock s.i.toNat (x.toNat + 1) with
  | none => .next (s.raise .memoryOutOfRange (some (encode (.loadRegs x))))
  | some bs => .next { s.advance with regs := writeRegsFrom 0 bs s.regs }

end Sys2Proof.Machine
end

