-- ==== Sys2Proof/Machine/KeysTimers.lean ====
section
/-! DEFINITION. Keypad and timer instructions (46_keys_timers.md R270 to R276). A meaning
starts from the state before the fetch: `s.pc` is the fetch address, `s.advance` the state after the
fetch's increment (40_cycle_and_dispatch.md R114), and a fatal error is taken from `s` itself
(R121). -/

namespace Sys2Proof.Machine

/-- SKIP.KEY (R271). -/
def execSkipKey (x : Reg) (s : State) : Host.Outcome State Fault Refusal :=
  .next (s.advance.skipIf (s.pressed (s.getV x)))

/-- SKIP.NKEY (R272). -/
def execSkipNkey (x : Reg) (s : State) : Host.Outcome State Fault Refusal :=
  .next (s.advance.skipIf (!s.pressed (s.getV x)))

/-- LD.VX.K (R273): a held key is stored at once; with none held the block latches `x` and waits
(R119). -/
def execLdVxK (x : Reg) (s : State) : Host.Outcome State Fault Refusal :=
  .next (match lowestKey s.now.keys with
    | some k => s.advance.setV x (k.setWidth 8)
    | none => { s.advance with waitX := x, run := .waitingForKey })

/-- LD.VX.DT (R274). -/
def execLdVxDt (x : Reg) (s : State) : Host.Outcome State Fault Refusal :=
  .next (s.advance.setV x s.dt)

/-- LD.DT.VX (R275). -/
def execLdDtVx (x : Reg) (s : State) : Host.Outcome State Fault Refusal :=
  .next { s.advance with dt := s.getV x }

/-- LD.ST.VX (R276). -/
def execLdStVx (x : Reg) (s : State) : Host.Outcome State Fault Refusal :=
  .next { s.advance with st := s.getV x }

end Sys2Proof.Machine
end

