-- ==== Sys2Proof/Machine/Display.lean ====
section
/-! DEFINITION. The Display device (45_random_display.md R253 to R256, 60_exceptions.md R313): the
requests the block can make of it and what it does with them. -/

namespace Sys2Proof.Machine

/-- A request of the block to the Display (R313). -/
inductive DisplayRequest where
  | clear
  | blit (x y : Byte) (rows : List Byte)
  deriving DecidableEq, Repr

/-- `fb[px][py]`. -/
def fbGet (fb : Framebuffer) (px : Fin 64) (py : Fin 32) : Bool := (fb[px])[py]

/-- `fb[px][py] <- b`. -/
def fbSet (fb : Framebuffer) (px : Fin 64) (py : Fin 32) (b : Bool) : Framebuffer :=
  fb.set px ((fb[px]).set py b)

/-- Every pixel off (R256). -/
def blankFramebuffer : Framebuffer := Vector.replicate 64 (Vector.replicate 32 false)

/-- The columns a sprite row lights, as offsets 0 to 7: bit 7 is the leftmost (R253). -/
def rowOffsets (row : Byte) : List Nat := (List.range 8).filter fun b => row.getLsbD (7 - b)

/-- The pixels under the set bits of the sprite rows, from row number `r` on, in the loop's order:
top row first, left to right, coordinates wrapped modulo 64 and 32 (R255). -/
def spritePixels (x0 y0 : Byte) (r : Nat) (rows : List Byte) : List (Fin 64 × Fin 32) :=
  match rows with
  | [] => []
  | row :: rest =>
    (rowOffsets row).map (fun b => (Fin.ofNat 64 (x0.toNat + b), Fin.ofNat 32 (y0.toNat + r)))
      ++ spritePixels x0 y0 (r + 1) rest

/-- One set sprite bit: the pixel is inverted, and a lit one counts as a collision (R255). -/
def plot (acc : Framebuffer × Bool) (p : Fin 64 × Fin 32) : Framebuffer × Bool :=
  (fbSet acc.1 p.1 p.2 (!fbGet acc.1 p.1 p.2), acc.2 || fbGet acc.1 p.1 p.2)

/-- `Display.blit(x0, y0, rows)`: the framebuffer after it, and whether a lit pixel was turned off
(R255). -/
def blit (x0 y0 : Byte) (rows : List Byte) (fb : Framebuffer) : Framebuffer × Bool :=
  (spritePixels x0 y0 0 rows).foldl plot (fb, false)

/-- What the Display does with a request: the framebuffer after it and the collision result
(`clear()` returns nothing: false here, read by no instruction). -/
def performRequest (q : DisplayRequest) (fb : Framebuffer) : Framebuffer × Bool :=
  match q with
  | .clear => (blankFramebuffer, false)
  | .blit x y rows => blit x y rows fb

end Sys2Proof.Machine
end

