-- ==== Sys2Proof/Machine/RandomDisplay.lean ====
section
/-! DEFINITION. Random byte and display instructions (45_random_display.md R250 to R254). A meaning
starts from the state before the fetch: `s.pc` is the fetch address, `s.advance` the state after the
fetch's increment (40_cycle_and_dispatch.md R114), and a fatal error is taken from `s` itself
(R121). -/

namespace Sys2Proof.Machine

/-- RND (R250): the tick's random byte under a mask. -/
def execRnd (x : Reg) (nn : Byte) (s : State) : Host.Outcome State Fault Refusal :=
  .next (s.advance.setV x (s.now.rnd &&& nn))

/-- CLS (R251): `Display.clear()`. -/
def execCls (s : State) : Host.Outcome State Fault Refusal :=
  .next { s.advance with fb := (performRequest .clear s.fb).1 }

/-- DRAW (R252): the sprite rows are read, all checked first; the Display inverts the pixels; VF is
the collision result. -/
def execDraw (x y : Reg) (n : Nibble) (s : State) : Host.Outcome State Fault Refusal :=
  match s.readBlock s.i.toNat n.toNat with
  | none => .next (s.raise .memoryOutOfRange (some (encode (.draw x y n))))
  | some rows =>
    let drawn := performRequest (.blit (s.getV x) (s.getV y) rows) s.fb
    .next ({ s.advance with fb := drawn.1 }.setV regVF (flagByte drawn.2))

end Sys2Proof.Machine
end

