-- ==== Sys2Proof/Machine/Tick.lean ====
section
/-! DEFINITION. One tick (40_cycle_and_dispatch.md R110 to R122) and its outputs (R123). -/

namespace Sys2Proof.Machine

/-- `WaitStep`: a key event ends the wait (R120). -/
def State.waitStep (s : State) (event : Option Key) : State :=
  match event with
  | none => s
  | some k => { s.setV s.waitX (k.setWidth 8) with run := .running }

/-- The end of a tick: unless the block has halted, the timers count down on the strobe (R122), and
the tick's inputs are used up. A tick that ends in Halted changes nothing more (R121, R302). -/
def State.endTick (t : State) (inp : TickInput) : State :=
  match t.run with
  | .halted => t
  | .running | .waitingForKey => (t.strobe inp.timerTick).popInput

/-- `ExecuteOne`: fetch, decode, dispatch (R113 to R118). -/
def executeOne (s : State) : Host.Outcome State Fault Refusal :=
  match s.fetch with
  | none => .next (s.raise .memoryOutOfRange none)
  | some op =>
    match decode op with
    | .error _ => .next (s.raise .invalidOpcode (some op))
    | .ok i => exec i s

/-- `Tick` (R110): nothing in Halted (R111); a quit halts at once (R112); otherwise an instruction
or a step of the wait, then the countdown. -/
def tick (s : State) : Host.Outcome State Fault Refusal :=
  match s.run with
  | .halted => .next s
  | .running =>
    if s.now.quit then .next { s with run := .halted }
    else
      match executeOne s with
      | .next t => .next (t.endTick s.now)
      | .fault f => .fault f
      | .refused r => .refused r
  | .waitingForKey =>
    if s.now.quit then .next { s with run := .halted }
    else .next ((s.waitStep s.now.keyEvent).endTick s.now)

/-- The Display request of an instruction, if it makes one (R123, R313). -/
def instrRequest (i : Instr) (s : State) : Option DisplayRequest :=
  match i with
  | .cls => some .clear
  | .draw x y n => (s.readBlock s.i.toNat n.toNat).map (.blit (s.getV x) (s.getV y))
  | .ret | .sys _ | .jmp _ | .call _ | .skipEqImm _ _ | .skipNeImm _ _ | .skipEqReg _ _ _ => none
  | .movImm _ _ | .addImm _ _ | .movReg _ _ | .or _ _ | .and _ _ | .xor _ _ | .addReg _ _ => none
  | .sub _ _ | .shr _ _ | .subn _ _ | .shl _ _ | .skipNeReg _ _ _ | .movI _ | .jmpV0 _ => none
  | .rnd _ _ | .skipKey _ | .skipNkey _ | .ldVxDt _ | .ldVxK _ | .ldDtVx _ | .ldStVx _ => none
  | .addI _ | .ldIFont _ | .storeBcd _ | .storeRegs _ | .loadRegs _ => none

/-- The Display request the tick from this state makes: at most one (R123). -/
def State.displayRequest (s : State) : Option DisplayRequest :=
  if s.run = .running ∧ s.now.quit = false then
    match s.fetch with
    | none => none
    | some op =>
      match decode op with
      | .error _ => none
      | .ok i => instrRequest i s
  else none

end Sys2Proof.Machine
end

