-- ==== Sys2Proof/Machine/Step.lean ====
section
/-! DEFINITION. One step of the machine is one tick (00_scope.md R2, 40_cycle_and_dispatch.md
R110). -/

namespace Sys2Proof.Machine

/-- One tick of the block. -/
def step (s : State) : Host.Outcome State Fault Refusal := tick s

/-- The state with an instruction, given as the opcode table numbers its bits, placed where the next
tick fetches. -/
def State.withFetchWord (s : State) (nbits w : Nat) : State := s.placeWord (tableWord nbits w)

end Sys2Proof.Machine
end

