-- ==== Sys2Proof/Safety.lean ====
section
/-! DEFINITION. The terms claims are stated in: the invariant of the machine, what two states
have in common, and the tables of what each instruction may write (10_state.md R22 to R24, R29;
20_memory.md R60). -/

namespace Sys2Proof.Machine

/-- The invariant every step keeps. -/
structure Inv (s : State) : Prop where
  /-- Memory is in canonical form, inside the array (20_memory.md R50). -/
  memWf : Memory.wf s.mem
  /-- `PC` holds a value in 0x000 to 0xFFF (10_state.md R27). -/
  pcRange : s.pc.toNat < 0x1000
  /-- `I` holds a value in 0x000 to 0xFFF (R25). -/
  iRange : s.i.toNat < 0x1000
  /-- At most 16 return addresses (R29). -/
  depth : s.stack.length ≤ 16
  /-- Every return address lies in 0x000 to 0xFFF (R30). -/
  stackRange : ∀ v ∈ s.stack, v.toNat < 0x1000
  /-- A recorded fatal error goes with Halted (60_exceptions.md R303), with `PC` at the recorded
  address (R302), and is never a ROM load's (R307). -/
  faultHalted : ∀ r, s.fault = some r → s.run = .halted ∧ r.pc = s.pc ∧ r.kind ≠ .romTooLarge

/-- `PC` after the fetch's increment (40_cycle_and_dispatch.md R114): the fetch address plus 2,
modulo 0x1000. -/
def State.pcPlus2 (s : State) : Nat := (s.pc.toNat + 2) % 0x1000

/-- `PC` after the fetch's increment and a skip (42_skip.md R160). -/
def State.pcPlus4 (s : State) : Nat := (s.pcPlus2 + 2) % 0x1000

/-- The parts of the state an instruction may write besides `PC` and registers. -/
inductive Part where
  | index
  | stack
  | delay
  | sound
  | memory
  | framebuffer
  | driver
  deriving DecidableEq, Repr

/-- `t` differs from `s` at most in `PC`, in the registers `ws` and in the parts `may`: every other
register, `I`, the stack, the timers, every byte of memory, the framebuffer, the loop driver's
`run` and `wait_x` are as before; the fault record and the host's inputs always are. -/
structure Frame (may : List Part) (ws : List Reg) (s t : State) : Prop where
  regs : ∀ r, r ∉ ws → t.getV r = s.getV r
  index : Part.index ∉ may → t.i = s.i
  stack : Part.stack ∉ may → t.stack = s.stack
  delay : Part.delay ∉ may → t.dt = s.dt
  sound : Part.sound ∉ may → t.st = s.st
  memory : Part.memory ∉ may → ∀ a, memGet t.mem a = memGet s.mem a
  framebuffer : Part.framebuffer ∉ may → t.fb = s.fb
  driver : Part.driver ∉ may → t.run = s.run ∧ t.waitX = s.waitX
  fault : t.fault = s.fault
  inputs : t.inputs = s.inputs ∧ t.ticks = s.ticks

/-- Every byte outside the `len` bytes from `base` reads as before. -/
def MemSameOutside (base len : Nat) (s t : State) : Prop :=
  ∀ a, a < base ∨ base + len ≤ a → memGet t.mem a = memGet s.mem a

/-- The registers V0 to Vx. -/
def regsThrough (x : Reg) : List Reg := (List.range (x.toNat + 1)).map (BitVec.ofNat 4)

/-- The registers an instruction may write (10_state.md R23, column "V written"; R22 for VF). -/
def mayWriteRegs : Instr → List Reg
  | .movImm x _ | .addImm x _ | .movReg x _ | .or x _ | .and x _ | .xor x _ => [x]
  | .rnd x _ | .ldVxDt x | .ldVxK x => [x]
  | .addReg x _ | .sub x _ | .subn x _ | .shr x _ | .shl x _ => [x, regVF]
  | .draw _ _ _ => [regVF]
  | .loadRegs x => regsThrough x
  | .cls | .ret | .sys _ | .jmp _ | .call _ | .skipEqImm _ _ | .skipNeImm _ _ => []
  | .skipEqReg _ _ _ | .skipNeReg _ _ _ | .movI _ | .jmpV0 _ | .skipKey _ | .skipNkey _ => []
  | .ldDtVx _ | .ldStVx _ | .addI _ | .ldIFont _ | .storeBcd _ | .storeRegs _ => []

/-- The other parts an instruction may write: `I` (R24), the stack (R29), the timers (R31, R32),
memory (20_memory.md R60), the framebuffer (R37), `run` and `wait_x` (R35, R119). -/
def mayWriteParts : Instr → List Part
  | .movI _ | .addI _ | .ldIFont _ => [.index]
  | .call _ | .ret => [.stack]
  | .ldDtVx _ => [.delay]
  | .ldStVx _ => [.sound]
  | .storeBcd _ | .storeRegs _ => [.memory]
  | .cls | .draw _ _ _ => [.framebuffer]
  | .ldVxK _ => [.driver]
  | .sys _ | .jmp _ | .skipEqImm _ _ | .skipNeImm _ _ | .skipEqReg _ _ _ | .movImm _ _ => []
  | .addImm _ _ | .movReg _ _ | .or _ _ | .and _ _ | .xor _ _ | .addReg _ _ | .sub _ _ => []
  | .shr _ _ | .subn _ _ | .shl _ _ | .skipNeReg _ _ _ | .jmpV0 _ | .rnd _ _ => []
  | .skipKey _ | .skipNkey _ | .ldVxDt _ | .loadRegs _ => []

/-- How many bytes an instruction stores at `I`, where it stores (R60). -/
def storeWidth : Instr → Nat
  | .storeBcd _ => 3
  | .storeRegs x => x.toNat + 1
  | .cls | .ret | .sys _ | .jmp _ | .call _ | .skipEqImm _ _ | .skipNeImm _ _ => 0
  | .skipEqReg _ _ _ | .movImm _ _ | .addImm _ _ | .movReg _ _ | .or _ _ | .and _ _ => 0
  | .xor _ _ | .addReg _ _ | .sub _ _ | .shr _ _ | .subn _ _ | .shl _ _ => 0
  | .skipNeReg _ _ _ | .movI _ | .jmpV0 _ | .rnd _ _ | .draw _ _ _ | .skipKey _ => 0
  | .skipNkey _ | .ldVxDt _ | .ldVxK _ | .ldDtVx _ | .ldStVx _ | .addI _ | .ldIFont _ => 0
  | .loadRegs _ => 0

/-- A pixel lies under a set bit of the sprite (45_random_display.md R253, R255): bit 7 of a row is
column offset 0, coordinates wrap modulo 64 and 32. -/
def SpriteCovers (x0 y0 : Byte) (rows : List Byte) (px : Fin 64) (py : Fin 32) : Prop :=
  ∃ r b, r < rows.length ∧ b < 8 ∧ (rows.getD r 0).getLsbD (7 - b) = true ∧
    px.val = (x0.toNat + b) % 64 ∧ py.val = (y0.toNat + r) % 32

/-- An instruction's own check fails in a state (60_exceptions.md R305): the error it raises. -/
def ownFault (i : Instr) (s : State) : Option ErrorKind :=
  let outside (len : Nat) : Option ErrorKind :=
    if len ≠ 0 ∧ s.i.toNat + len > 0x1000 then some .memoryOutOfRange else none
  match i with
  | .call _ => if s.stack.length ≥ 16 then some .stackOverflow else none
  | .ret => if s.stack = [] then some .stackUnderflow else none
  | .draw _ _ n => outside n.toNat
  | .storeBcd _ => outside 3
  | .storeRegs x => outside (x.toNat + 1)
  | .loadRegs x => outside (x.toNat + 1)
  | .cls | .sys _ | .jmp _ | .skipEqImm _ _ | .skipNeImm _ _ | .skipEqReg _ _ _ => none
  | .movImm _ _ | .addImm _ _ | .movReg _ _ | .or _ _ | .and _ _ | .xor _ _ => none
  | .addReg _ _ | .sub _ _ | .shr _ _ | .subn _ _ | .shl _ _ | .skipNeReg _ _ _ => none
  | .movI _ | .jmpV0 _ | .rnd _ _ | .skipKey _ | .skipNkey _ | .ldVxDt _ | .ldVxK _ => none
  | .ldDtVx _ | .ldStVx _ | .addI _ | .ldIFont _ => none

end Sys2Proof.Machine
end

