-- ==== Sys2Proof/Certificates/Slice0/Obligations.lean ====
section
/-! DEFINITION. The statements for the provers. An instruction statement gives the word it is
decoded from, that it completes, its result, where `PC` goes, and its frame. Where a clause rests on
a decision or an inference the spec marks as its own, the docstring says so. -/

open Sys2Proof Sys2Proof.Machine

/-! ### Control transfer (41_flow.md) -/

/-- SYS (R141): every word 0x0nnn but 0x00E0 and 0x00EE is SYS, and SYS only advances `PC`. -/
def Obligations.SysOnlyAdvancesPc : Prop :=
  ∀ (nnn : Addr) (s : State),
    (nnn ≠ 0x0E0#12 → nnn ≠ 0x0EE#12 → decode (0x0#4 ++ nnn) = .ok (.sys nnn)) ∧
    ∃ t, exec (.sys nnn) s = .next t ∧ t.pc.toNat = s.pcPlus2 ∧ Frame [] [] s t

/-- JMP (R142): `PC` becomes the 12-bit target, whatever it is. -/
def Obligations.JmpSetsPc : Prop :=
  ∀ (nnn : Addr) (s : State),
    decode (0x1#4 ++ nnn) = .ok (.jmp nnn) ∧
    ∃ t, exec (.jmp nnn) s = .next t ∧ t.pc.toNat = nnn.toNat ∧ Frame [] [] s t

/-- JMP.V0 (R144): `PC` becomes `(V0 + nnn) mod 0x1000`; the register is V0 whatever the word's
`x` nibble is. -/
def Obligations.JmpV0SetsPc : Prop :=
  ∀ (nnn : Addr) (s : State),
    decode (0xB#4 ++ nnn) = .ok (.jmpV0 nnn) ∧
    ∃ t, exec (.jmpV0 nnn) s = .next t ∧
      t.pc.toNat = ((s.getV 0#4).toNat + nnn.toNat) % 0x1000 ∧ Frame [] [] s t

/-- CALL with room on the stack (41_flow.md, CALL): the post-fetch `PC` is pushed and `PC` becomes
the target. -/
def Obligations.CallPushesAndJumps : Prop :=
  ∀ (nnn : Addr) (s : State),
    decode (0x2#4 ++ nnn) = .ok (.call nnn) ∧
    (s.stack.length < 16 →
      ∃ t v, exec (.call nnn) s = .next t ∧ t.stack = v :: s.stack ∧ v.toNat = s.pcPlus2 ∧
        t.pc.toNat = nnn.toNat ∧ Frame [.stack] [] s t)

/-- CALL on a full stack takes StackOverflow: nothing is kept but the fault record and Halted (the
record and the discarded writes are the spec's decision D5, log entry 9). -/
def Obligations.CallOnFullStackHalts : Prop :=
  ∀ (nnn : Addr) (s : State), 16 ≤ s.stack.length →
    exec (.call nnn) s = .next
      { s with
        fault := some { kind := .stackOverflow, pc := s.pc, opcode := some (0x2#4 ++ nnn) }
        run := .halted }

/-- RET with an entry on the stack (41_flow.md, RET): the most recent entry becomes `PC`. -/
def Obligations.RetPopsIntoPc : Prop :=
  decode 0x00EE = .ok .ret ∧
  ∀ (v : Word) (rest : List Word) (s : State), s.stack = v :: rest →
    ∃ t, exec .ret s = .next t ∧ t.pc = v ∧ t.stack = rest ∧ Frame [.stack] [] s t

/-- RET on an empty stack takes StackUnderflow (the record and the discarded writes are the spec's
decision D5, log entry 9). -/
def Obligations.RetOnEmptyStackHalts : Prop :=
  ∀ s : State, s.stack = [] →
    exec .ret s = .next
      { s with
        fault := some { kind := .stackUnderflow, pc := s.pc, opcode := some 0x00EE }
        run := .halted }

/-- "CALL then RETURN restores PC to the instruction immediately after the original CALL"
(41_flow.md, RET): whatever ran between, if it left the stack as CALL left it. -/
def Obligations.RetUndoesCall : Prop :=
  ∀ (nnn : Addr) (s t u : State), s.stack.length < 16 → exec (.call nnn) s = .next t →
    u.stack = t.stack →
    ∃ w, exec .ret u = .next w ∧ w.pc.toNat = s.pcPlus2 ∧ w.stack = s.stack

/-! ### Conditional skips (42_skip.md) -/

/-- SKIP.EQ.imm and SKIP.NE.imm (R161, R162). -/
def Obligations.SkipImmComparesAndSkips : Prop :=
  ∀ (x : Reg) (nn : Byte) (s : State),
    decode (0x3#4 ++ x ++ nn) = .ok (.skipEqImm x nn) ∧
    decode (0x4#4 ++ x ++ nn) = .ok (.skipNeImm x nn) ∧
    (∃ t, exec (.skipEqImm x nn) s = .next t ∧
      t.pc.toNat = (if s.getV x = nn then s.pcPlus4 else s.pcPlus2) ∧ Frame [] [] s t) ∧
    (∃ t, exec (.skipNeImm x nn) s = .next t ∧
      t.pc.toNat = (if s.getV x ≠ nn then s.pcPlus4 else s.pcPlus2) ∧ Frame [] [] s t)

/-- SKIP.EQ.reg and SKIP.NE.reg (R163, R164): the low nibble `z` of the word is ignored. -/
def Obligations.SkipRegComparesAndSkips : Prop :=
  ∀ (x y : Reg) (z : Nibble) (s : State),
    decode (0x5#4 ++ x ++ y ++ z) = .ok (.skipEqReg x y z) ∧
    decode (0x9#4 ++ x ++ y ++ z) = .ok (.skipNeReg x y z) ∧
    (∃ t, exec (.skipEqReg x y z) s = .next t ∧
      t.pc.toNat = (if s.getV x = s.getV y then s.pcPlus4 else s.pcPlus2) ∧ Frame [] [] s t) ∧
    (∃ t, exec (.skipNeReg x y z) s = .next t ∧
      t.pc.toNat = (if s.getV x ≠ s.getV y then s.pcPlus4 else s.pcPlus2) ∧ Frame [] [] s t)

/-! ### Register moves and the ALU (43_alu.md) -/

/-- MOV.imm and MOV.reg (R181, R183): only `Vx` is written. -/
def Obligations.MovWritesVx : Prop :=
  ∀ (x y : Reg) (nn : Byte) (s : State),
    decode (0x6#4 ++ x ++ nn) = .ok (.movImm x nn) ∧
    decode (0x8#4 ++ x ++ y ++ 0x0#4) = .ok (.movReg x y) ∧
    (∃ t, exec (.movImm x nn) s = .next t ∧ t.getV x = nn ∧
      t.pc.toNat = s.pcPlus2 ∧ Frame [] [x] s t) ∧
    (∃ t, exec (.movReg x y) s = .next t ∧ t.getV x = s.getV y ∧
      t.pc.toNat = s.pcPlus2 ∧ Frame [] [x] s t)

/-- ADD.imm (R182): the sum modulo 256, no flag. -/
def Obligations.AddImmWrapsWithoutFlag : Prop :=
  ∀ (x : Reg) (nn : Byte) (s : State),
    decode (0x7#4 ++ x ++ nn) = .ok (.addImm x nn) ∧
    ∃ t, exec (.addImm x nn) s = .next t ∧
      (t.getV x).toNat = ((s.getV x).toNat + nn.toNat) % 256 ∧
      t.pc.toNat = s.pcPlus2 ∧ Frame [] [x] s t

/-- OR, AND, XOR (R184, R185, R186): bit by bit, no flag. -/
def Obligations.LogicIsBitwiseWithoutFlag : Prop :=
  ∀ (x y : Reg) (s : State),
    decode (0x8#4 ++ x ++ y ++ 0x1#4) = .ok (.or x y) ∧
    decode (0x8#4 ++ x ++ y ++ 0x2#4) = .ok (.and x y) ∧
    decode (0x8#4 ++ x ++ y ++ 0x3#4) = .ok (.xor x y) ∧
    (∃ t, exec (.or x y) s = .next t ∧
      (∀ k, (t.getV x).getLsbD k = ((s.getV x).getLsbD k || (s.getV y).getLsbD k)) ∧
      t.pc.toNat = s.pcPlus2 ∧ Frame [] [x] s t) ∧
    (∃ t, exec (.and x y) s = .next t ∧
      (∀ k, (t.getV x).getLsbD k = ((s.getV x).getLsbD k && (s.getV y).getLsbD k)) ∧
      t.pc.toNat = s.pcPlus2 ∧ Frame [] [x] s t) ∧
    (∃ t, exec (.xor x y) s = .next t ∧
      (∀ k, (t.getV x).getLsbD k = ((s.getV x).getLsbD k != (s.getV y).getLsbD k)) ∧
      t.pc.toNat = s.pcPlus2 ∧ Frame [] [x] s t)

/-- ADD.reg (R187): the sum modulo 256 and the carry; VF holds the carry even when `x` is VF. -/
def Obligations.AddRegSumAndCarry : Prop :=
  ∀ (x y : Reg) (s : State),
    decode (0x8#4 ++ x ++ y ++ 0x4#4) = .ok (.addReg x y) ∧
    ∃ t, exec (.addReg x y) s = .next t ∧
      (x ≠ 0xF#4 → (t.getV x).toNat = ((s.getV x).toNat + (s.getV y).toNat) % 256) ∧
      (t.getV 0xF#4).toNat = (if (s.getV x).toNat + (s.getV y).toNat > 255 then 1 else 0) ∧
      t.pc.toNat = s.pcPlus2 ∧ Frame [] [x, 0xF#4] s t

/-- SUB (R188): `Vx - Vy` modulo 256 and the no-borrow flag, also for equal operands. -/
def Obligations.SubDifferenceAndNoBorrow : Prop :=
  ∀ (x y : Reg) (s : State),
    decode (0x8#4 ++ x ++ y ++ 0x5#4) = .ok (.sub x y) ∧
    ∃ t, exec (.sub x y) s = .next t ∧
      (x ≠ 0xF#4 → (t.getV x).toNat = ((s.getV x).toNat + 256 - (s.getV y).toNat) % 256) ∧
      (t.getV 0xF#4).toNat = (if (s.getV x).toNat ≥ (s.getV y).toNat then 1 else 0) ∧
      t.pc.toNat = s.pcPlus2 ∧ Frame [] [x, 0xF#4] s t

/-- SUBN (43_alu.md, SUBN): `Vy - Vx` modulo 256 and the no-borrow flag, which the spec derives:
"'no borrow' is read as for SUB with the operands exchanged". -/
def Obligations.SubnDifferenceAndNoBorrow : Prop :=
  ∀ (x y : Reg) (s : State),
    decode (0x8#4 ++ x ++ y ++ 0x7#4) = .ok (.subn x y) ∧
    ∃ t, exec (.subn x y) s = .next t ∧
      (x ≠ 0xF#4 → (t.getV x).toNat = ((s.getV y).toNat + 256 - (s.getV x).toNat) % 256) ∧
      (t.getV 0xF#4).toNat = (if (s.getV y).toNat ≥ (s.getV x).toNat then 1 else 0) ∧
      t.pc.toNat = s.pcPlus2 ∧ Frame [] [x, 0xF#4] s t

/-- SHR (R189): `Vx` halved, VF the old bit 0; the nibble `z` is ignored. -/
def Obligations.ShrHalvesAndShiftsOut : Prop :=
  ∀ (x : Reg) (z : Nibble) (s : State),
    decode (0x8#4 ++ x ++ z ++ 0x6#4) = .ok (.shr x z) ∧
    ∃ t, exec (.shr x z) s = .next t ∧
      (x ≠ 0xF#4 → (t.getV x).toNat = (s.getV x).toNat / 2) ∧
      (t.getV 0xF#4).toNat = (s.getV x).toNat % 2 ∧
      t.pc.toNat = s.pcPlus2 ∧ Frame [] [x, 0xF#4] s t

/-- SHL (R191): `Vx` doubled modulo 256, VF the old bit 7; the nibble `z` is ignored. -/
def Obligations.ShlDoublesAndShiftsOut : Prop :=
  ∀ (x : Reg) (z : Nibble) (s : State),
    decode (0x8#4 ++ x ++ z ++ 0xE#4) = .ok (.shl x z) ∧
    ∃ t, exec (.shl x z) s = .next t ∧
      (x ≠ 0xF#4 → (t.getV x).toNat = (s.getV x).toNat * 2 % 256) ∧
      (t.getV 0xF#4).toNat = (s.getV x).toNat / 128 ∧
      t.pc.toNat = s.pcPlus2 ∧ Frame [] [x, 0xF#4] s t

/-! ### Index register and memory (44_index_memory.md) -/

/-- MOV.I (R220): `I` becomes the 12-bit operand. -/
def Obligations.MovISetsIndex : Prop :=
  ∀ (nnn : Addr) (s : State),
    decode (0xA#4 ++ nnn) = .ok (.movI nnn) ∧
    ∃ t, exec (.movI nnn) s = .next t ∧ t.i.toNat = nnn.toNat ∧
      t.pc.toNat = s.pcPlus2 ∧ Frame [.index] [] s t

/-- ADD.I (R221): `I + Vx` modulo 0x1000, no flag. -/
def Obligations.AddIWrapsTwelveBits : Prop :=
  ∀ (x : Reg) (s : State),
    decode (0xF#4 ++ x ++ 0x1E#8) = .ok (.addI x) ∧
    ∃ t, exec (.addI x) s = .next t ∧ t.i.toNat = (s.i.toNat + (s.getV x).toNat) % 0x1000 ∧
      t.pc.toNat = s.pcPlus2 ∧ Frame [.index] [] s t

/-- LD.I.FONT (44_index_memory.md, LD.I.FONT): `I` becomes 0x050 plus 5 times the low nibble of
`Vx`. The base and the glyph size are the spec's decision D9 (log entry 4), the low nibble its
decision D10 (log entry 5). -/
def Obligations.FontPointsAtGlyph : Prop :=
  ∀ (x : Reg) (s : State),
    decode (0xF#4 ++ x ++ 0x29#8) = .ok (.ldIFont x) ∧
    ∃ t, exec (.ldIFont x) s = .next t ∧ t.i.toNat = 0x050 + 5 * ((s.getV x).toNat % 16) ∧
      t.pc.toNat = s.pcPlus2 ∧ Frame [.index] [] s t

/-- STORE.BCD inside memory (44_index_memory.md, STORE.BCD): three digits at `I`, every other byte
as before. -/
def Obligations.StoreBcdStoresDigits : Prop :=
  ∀ (x : Reg) (s : State),
    decode (0xF#4 ++ x ++ 0x33#8) = .ok (.storeBcd x) ∧
    (Memory.wf s.mem → s.i.toNat + 2 ≤ 0xFFF →
      ∃ t, exec (.storeBcd x) s = .next t ∧
        (memGet t.mem s.i.toNat).toNat = (s.getV x).toNat / 100 ∧
        (memGet t.mem (s.i.toNat + 1)).toNat = (s.getV x).toNat / 10 % 10 ∧
        (memGet t.mem (s.i.toNat + 2)).toNat = (s.getV x).toNat % 10 ∧
        MemSameOutside s.i.toNat 3 s t ∧ t.pc.toNat = s.pcPlus2 ∧ Frame [.memory] [] s t)

/-- STORE.REGS inside memory (44_index_memory.md, STORE.REGS): V0 to Vx at `I` and on, every other
byte as before, `I` unchanged. -/
def Obligations.StoreRegsStoresRegisters : Prop :=
  ∀ (x : Reg) (s : State),
    decode (0xF#4 ++ x ++ 0x55#8) = .ok (.storeRegs x) ∧
    (Memory.wf s.mem → s.i.toNat + x.toNat ≤ 0xFFF →
      ∃ t, exec (.storeRegs x) s = .next t ∧
        (∀ r : Reg, r.toNat ≤ x.toNat → memGet t.mem (s.i.toNat + r.toNat) = s.getV r) ∧
        MemSameOutside s.i.toNat (x.toNat + 1) s t ∧
        t.pc.toNat = s.pcPlus2 ∧ Frame [.memory] [] s t)

/-- LOAD.REGS inside memory (44_index_memory.md, LOAD.REGS): V0 to Vx from `I` and on, the registers
above `x`, memory and `I` as before. -/
def Obligations.LoadRegsLoadsRegisters : Prop :=
  ∀ (x : Reg) (s : State),
    decode (0xF#4 ++ x ++ 0x65#8) = .ok (.loadRegs x) ∧
    (s.i.toNat + x.toNat ≤ 0xFFF →
      ∃ t, exec (.loadRegs x) s = .next t ∧
        (∀ r : Reg, r.toNat ≤ x.toNat → t.getV r = memGet s.mem (s.i.toNat + r.toNat)) ∧
        (∀ r : Reg, x.toNat < r.toNat → t.getV r = s.getV r) ∧
        t.pc.toNat = s.pcPlus2 ∧ Frame [] (regsThrough x) s t)

/-- STORE.BCD, STORE.REGS, LOAD.REGS and DRAW whose block passes 0xFFF take MemoryOutOfRange and
keep nothing (the check before any byte moves is the spec's decision D16, the record and the
discarded writes its decision D5; log entry 9). -/
def Obligations.BlockPastEndHalts : Prop :=
  ∀ (x y : Reg) (n : Nibble) (s : State),
    let halted (op : Word) : State :=
      { s with
        fault := some { kind := .memoryOutOfRange, pc := s.pc, opcode := some op }
        run := .halted }
    (s.i.toNat + 2 > 0xFFF →
      exec (.storeBcd x) s = .next (halted (0xF#4 ++ x ++ 0x33#8))) ∧
    (s.i.toNat + x.toNat > 0xFFF →
      exec (.storeRegs x) s = .next (halted (0xF#4 ++ x ++ 0x55#8)) ∧
      exec (.loadRegs x) s = .next (halted (0xF#4 ++ x ++ 0x65#8))) ∧
    (n.toNat > 0 → s.i.toNat + n.toNat - 1 > 0xFFF →
      exec (.draw x y n) s = .next (halted (0xD#4 ++ x ++ y ++ n)))

/-- A store is seen by the very next fetch (20_memory.md section 4, derived there): STORE.REGS over
the next instruction's two bytes. -/
def Obligations.StoreSeenByNextFetch : Prop :=
  ∀ (x : Reg) (s t : State), Memory.wf s.mem → 1 ≤ x.toNat → s.i.toNat = s.pcPlus2 →
    s.i.toNat + x.toNat ≤ 0xFFF → exec (.storeRegs x) s = .next t →
    t.fetch = some (s.getV 0 ++ s.getV 1)

/-! ### Random byte and display (45_random_display.md) -/

/-- RND (45_random_display.md, RND): `Vx` is the tick's random byte under the mask. Which byte that
is, the spec leaves open (decision D19): the host's input, or the free value when the host has given
none (log entries 1 and 2), so this holds for every byte. -/
def Obligations.RndMasksRandomByte : Prop :=
  ∀ (x : Reg) (nn : Byte) (s : State),
    decode (0xC#4 ++ x ++ nn) = .ok (.rnd x nn) ∧
    ∃ t, exec (.rnd x nn) s = .next t ∧
      t.getV x = (match s.inputs with
        | [] => Config.freeRnd s.ticks
        | inp :: _ => inp.rnd) &&& nn ∧
      t.pc.toNat = s.pcPlus2 ∧ Frame [] [x] s t

/-- CLS (R251): every pixel off, nothing else. -/
def Obligations.ClsClearsDisplay : Prop :=
  decode 0x00E0 = .ok .cls ∧
  ∀ s : State, ∃ t, exec .cls s = .next t ∧ (∀ px py, fbGet t.fb px py = false) ∧
    t.pc.toNat = s.pcPlus2 ∧ Frame [.framebuffer] [] s t

/-- DRAW inside memory (45_random_display.md sections 3 and 4): exactly the pixels under a set
sprite bit are inverted, and VF says whether one of them was lit; with `n = 0`, none. The sprite's
bit order is general knowledge by the spec's own mark (log entry 8). -/
def Obligations.DrawInvertsCoveredPixels : Prop :=
  ∀ (x y : Reg) (n : Nibble) (s : State),
    decode (0xD#4 ++ x ++ y ++ n) = .ok (.draw x y n) ∧
    (n = 0 ∨ s.i.toNat + n.toNat - 1 ≤ 0xFFF →
      let rows := (List.range n.toNat).map fun r => memGet s.mem (s.i.toNat + r)
      let covers := SpriteCovers (s.getV x) (s.getV y) rows
      ∃ t, exec (.draw x y n) s = .next t ∧
        (∀ px py, covers px py → fbGet t.fb px py = !fbGet s.fb px py) ∧
        (∀ px py, ¬ covers px py → fbGet t.fb px py = fbGet s.fb px py) ∧
        ((∃ px py, covers px py ∧ fbGet s.fb px py = true) → t.getV 0xF#4 = 1) ∧
        ((¬ ∃ px py, covers px py ∧ fbGet s.fb px py = true) → t.getV 0xF#4 = 0) ∧
        t.pc.toNat = s.pcPlus2 ∧ Frame [.framebuffer] [0xF#4] s t)

/-- Drawing the same sprite twice at the same place restores the screen (45_random_display.md,
DRAW, corner cases), when the coordinates are not in VF, which the first draw overwrites. -/
def Obligations.DrawTwiceRestoresScreen : Prop :=
  ∀ (x y : Reg) (n : Nibble) (s t u : State), x ≠ 0xF#4 → y ≠ 0xF#4 →
    exec (.draw x y n) s = .next t → exec (.draw x y n) t = .next u → u.fb = s.fb

/-- The framebuffer changes only by the request the tick makes of the Display, as the Display
performs it (60_exceptions.md section 4; 00_scope.md R5 is the spec's decision D20). -/
def Obligations.FramebufferFollowsRequests : Prop :=
  ∀ s t : State, step s = .next t →
    t.fb = match s.displayRequest with
      | none => s.fb
      | some q => (performRequest q s.fb).1

/-! ### Keypad and timers (46_keys_timers.md) -/

/-- SKIP.KEY and SKIP.NKEY (46_keys_timers.md, key test): skip on the key `Vx` held, not held. A
`Vx` above 0xF tests as not pressed by the spec's decision D11 (log entry 6). -/
def Obligations.SkipKeyTestsKey : Prop :=
  ∀ (x : Reg) (s : State),
    decode (0xE#4 ++ x ++ 0x9E#8) = .ok (.skipKey x) ∧
    decode (0xE#4 ++ x ++ 0xA1#8) = .ok (.skipNkey x) ∧
    (∃ t, exec (.skipKey x) s = .next t ∧ Frame [] [] s t ∧
      t.pc.toNat = if (s.getV x).toNat ≤ 0xF ∧ s.now.keys.getLsbD (s.getV x).toNat = true
        then s.pcPlus4 else s.pcPlus2) ∧
    (∃ t, exec (.skipNkey x) s = .next t ∧ Frame [] [] s t ∧
      t.pc.toNat = if (s.getV x).toNat ≤ 0xF ∧ s.now.keys.getLsbD (s.getV x).toNat = true
        then s.pcPlus2 else s.pcPlus4)

/-- LD.VX.K with a key held (46_keys_timers.md, LD.VX.K): the lowest-numbered held key at once.
"Lowest" is the spec's decision D12 (log entry 7). -/
def Obligations.KeyHeldIsStoredAtOnce : Prop :=
  ∀ (x : Reg) (k : Key) (s : State),
    decode (0xF#4 ++ x ++ 0x0A#8) = .ok (.ldVxK x) ∧
    (s.now.keys.getLsbD k.toNat = true → (∀ j < k.toNat, s.now.keys.getLsbD j = false) →
      ∃ t, exec (.ldVxK x) s = .next t ∧ (t.getV x).toNat = k.toNat ∧
        t.pc.toNat = s.pcPlus2 ∧ Frame [] [x] s t)

/-- LD.VX.K with no key held: the block latches `x` and waits, `PC` after the instruction. -/
def Obligations.NoKeyHeldWaits : Prop :=
  ∀ (x : Reg) (s : State), s.now.keys = 0 →
    ∃ t, exec (.ldVxK x) s = .next t ∧ t.run = .waitingForKey ∧ t.waitX = x ∧
      t.pc.toNat = s.pcPlus2 ∧ Frame [.driver] [] s t

/-- `run` enters WaitingForKey only from LD.VX.K with no key held, which then latches `x` (R119). -/
def Obligations.WaitEnteredOnlyFromFx0A : Prop :=
  ∀ s t : State, step s = .next t → s.run ≠ .waitingForKey → t.run = .waitingForKey →
    ∃ op x, s.fetch = some op ∧ decode op = .ok (.ldVxK x) ∧ s.now.keys = 0 ∧ t.waitX = x

/-- LD.VX.DT, LD.DT.VX, LD.ST.VX (46_keys_timers.md): the delay timer is read as it stands before
the tick's countdown, the timers are written before it (the spec's decision D25, log entry 10). -/
def Obligations.TimerMovesReadAndWrite : Prop :=
  ∀ (x : Reg) (s : State),
    decode (0xF#4 ++ x ++ 0x07#8) = .ok (.ldVxDt x) ∧
    decode (0xF#4 ++ x ++ 0x15#8) = .ok (.ldDtVx x) ∧
    decode (0xF#4 ++ x ++ 0x18#8) = .ok (.ldStVx x) ∧
    (∃ t, exec (.ldVxDt x) s = .next t ∧ t.getV x = s.dt ∧
      t.pc.toNat = s.pcPlus2 ∧ Frame [] [x] s t) ∧
    (∃ t, exec (.ldDtVx x) s = .next t ∧ t.dt = s.getV x ∧
      t.pc.toNat = s.pcPlus2 ∧ Frame [.delay] [] s t) ∧
    (∃ t, exec (.ldStVx x) s = .next t ∧ t.st = s.getV x ∧
      t.pc.toNat = s.pcPlus2 ∧ Frame [.sound] [] s t)

/-- TimerCountdown (R310): each timer above zero one less, a zero timer zero, nothing else. -/
def Obligations.CountdownClampsAtZero : Prop :=
  ∀ s : State, s.countdown.dt.toNat = (if s.dt.toNat > 0 then s.dt.toNat - 1 else 0) ∧
    s.countdown.st.toNat = (if s.st.toNat > 0 then s.st.toNat - 1 else 0) ∧
    s.countdown.pc = s.pc ∧ Frame [.delay, .sound] [] s s.countdown

/-! ### The tick (40_cycle_and_dispatch.md) -/

/-- A step runs the decoded instruction: with a word at `PC` that decodes to `i`, in Running and
without a quit, step is exec of `i`, then the end of the tick. That the end of the tick, with its
countdown, comes after the instruction is the spec's decisions D3 and D25 (log entry 10). -/
def Obligations.StepRunsDecodedInstruction : Prop :=
  ∀ (s t : State) (op : Word) (i : Instr), s.run = .running → s.now.quit = false →
    s.fetch = some op → decode op = .ok i → exec i s = .next t → step s = .next (t.endTick s.now)

/-- The end of a tick: nothing in Halted; otherwise the countdown on the strobe and the host's
inputs of the tick used up, nothing else. Its place after the instruction is the spec's decision D3
and D25 (log entry 10); the list of inputs is the model's (log entry 1). -/
def Obligations.EndOfTickCountsDown : Prop :=
  ∀ (t : State) (inp : TickInput),
    (t.run = .halted → t.endTick inp = t) ∧
    (t.run ≠ .halted →
      t.endTick inp =
        { t with
          dt := if inp.timerTick then countTimer t.dt else t.dt
          st := if inp.timerTick then countTimer t.st else t.st
          inputs := t.inputs.tail
          ticks := t.ticks + 1 })

/-- The fetched word is big-endian (R57): the byte at the lower address is the high one. -/
def Obligations.FetchIsBigEndian : Prop :=
  ∀ s : State, s.pc.toNat < 0xFFF →
    ∃ op, s.fetch = some op ∧
      op.toNat = (memGet s.mem s.pc.toNat).toNat * 256 + (memGet s.mem (s.pc.toNat + 1)).toNat

/-- A fetch whose second byte lies above 0xFFF takes MemoryOutOfRange with no opcode recorded (the
record is the spec's decision D5, log entry 9). -/
def Obligations.FetchPastEndHalts : Prop :=
  ∀ s : State, s.run = .running → s.now.quit = false → 0xFFF ≤ s.pc.toNat →
    step s = .next
      { s with
        fault := some { kind := .memoryOutOfRange, pc := s.pc, opcode := none }
        run := .halted }

/-- A word that selects no instruction takes InvalidOpcode (40_cycle_and_dispatch.md sections 3 and
5; the record and the missing countdown are the spec's decision D5, log entry 9). -/
def Obligations.InvalidWordHalts : Prop :=
  ∀ (s : State) (op : Word), s.run = .running → s.now.quit = false → s.fetch = some op →
    (∀ i, decode op ≠ .ok i) →
    step s = .next
      { s with
        fault := some { kind := .invalidOpcode, pc := s.pc, opcode := some op }
        run := .halted }

/-- Halted is terminal: no number of ticks changes anything (the spec's decision D6, log entry
11). -/
def Obligations.HaltedForever : Prop :=
  ∀ (n : Nat) (s : State), s.run = .halted → Sys2Proof.core.run n s = .next s

/-- A quit halts at once and does nothing else; it wins over the instruction and the wait (the
spec's decisions D3 and D23, log entry 10). -/
def Obligations.QuitHaltsAtOnce : Prop :=
  ∀ s : State, s.run ≠ .halted → s.now.quit = true → step s = .next { s with run := .halted }

/-- A tick of the wait: no instruction, `PC` stays, a key event is stored in `V[wait_x]` and ends
the wait, without one only the timers change (that the completing tick runs no instruction is the spec's
decision D12, log entry 7). -/
def Obligations.WaitTickStoresEventKey : Prop :=
  ∀ s : State, s.run = .waitingForKey → s.now.quit = false →
    ∃ t, step s = .next t ∧ t.pc = s.pc ∧ t.i = s.i ∧ t.stack = s.stack ∧ t.mem = s.mem ∧
      t.fb = s.fb ∧ t.waitX = s.waitX ∧ t.fault = s.fault ∧
      t.dt = (if s.now.timerTick then countTimer s.dt else s.dt) ∧
      t.st = (if s.now.timerTick then countTimer s.st else s.st) ∧
      (s.now.keyEvent = none → t.run = .waitingForKey ∧ ∀ r, t.getV r = s.getV r) ∧
      (∀ k : Key, s.now.keyEvent = some k → t.run = .running ∧
        (t.getV s.waitX).toNat = k.toNat ∧ ∀ r, r ≠ s.waitX → t.getV r = s.getV r)

/-- A key event in a Running tick is not used (60_exceptions.md section 4; the spec's decision D13,
log entry 12): two ticks that differ only in it end in the same state. -/
def Obligations.RunningTickIgnoresKeyEvent : Prop :=
  ∀ (s t : State) (inp : TickInput) (rest : List TickInput) (e : Option Key),
    s.run = .running → s.inputs = inp :: rest → step s = .next t → t.run ≠ .halted →
    step { s with inputs := { inp with keyEvent := e } :: rest } = .next t

/-! ### Encoding (30_encoding.md) -/

/-- Words of the spec's own examples, one or two a family, written out bit by bit. -/
def Obligations.SpecExampleWordsDecode : Prop :=
  decode 0b0000000011100000 = .ok .cls ∧
  decode 0b0000000011101110 = .ok .ret ∧
  decode 0b0000000011100001 = .ok (.sys 0x0E1) ∧
  decode 0b0001101010111100 = .ok (.jmp 0xABC) ∧
  decode 0b0011000000010010 = .ok (.skipEqImm 0x0 0x12) ∧
  decode 0b0101000000010001 = .ok (.skipEqReg 0x0 0x1 0x1) ∧
  decode 0b0110000000000101 = .ok (.movImm 0x0 0x05) ∧
  decode 0b1000101010110100 = .ok (.addReg 0xA 0xB) ∧
  decode 0b1101000100100101 = .ok (.draw 0x1 0x2 0x5) ∧
  decode 0b1110000010011110 = .ok (.skipKey 0x0) ∧
  decode 0b1111001101010101 = .ok (.storeRegs 0x3)

/-- Exactly these words select no instruction (30_encoding.md section 2): in family 8 the low
nibbles 8 to D and F, in family E every low byte but 9E and A1, in family F every low byte but
nine. -/
def Obligations.InvalidWordsAreExactlyThese : Prop :=
  ∀ op : Word, (∀ i, decode op ≠ .ok i) ↔
    (op.toNat / 0x1000 = 0x8 ∧ op.toNat % 0x10 ∈ [0x8, 0x9, 0xA, 0xB, 0xC, 0xD, 0xF]) ∨
    (op.toNat / 0x1000 = 0xE ∧ op.toNat % 0x100 ∉ [0x9E, 0xA1]) ∨
    (op.toNat / 0x1000 = 0xF ∧
      op.toNat % 0x100 ∉ [0x07, 0x0A, 0x15, 0x18, 0x1E, 0x29, 0x33, 0x55, 0x65])

/-- Decoding an encoded well-formed instruction gives it back, every operand at every value. -/
def Obligations.DecodeOfEncode : Prop :=
  ∀ i : Instr, i.wf = true → decode (encode i) = .ok i

/-- A word that decodes to an instruction is that instruction's encoding, and the instruction is
well-formed: no two words stand for one instruction and no bit is dropped. -/
def Obligations.EncodeOfDecode : Prop :=
  ∀ (op : Word) (i : Instr), decode op = .ok i → i.wf = true ∧ encode i = op

/-- An instruction placed where the next tick fetches is the one that tick runs, then the end of the
tick. Placing is the model's (log entry 14); that the end of the tick comes after the instruction is
the spec's decisions D3 and D25 (log entry 10). -/
def Obligations.PlacedWordIsRun : Prop :=
  ∀ (s t : State) (w : Nat) (i : Instr), Memory.wf s.mem → s.pc.toNat < 0xFFF →
    decodeTableWord 16 w = some i → exec i (s.withFetchWord 16 w) = .next t →
    step (s.withFetchWord 16 w) = .next (t.endTick (s.withFetchWord 16 w).now)

/-! ### Reset and load (70_reset_and_hazards.md) -/

/-- The state after reset with nothing loaded. The values of `I`, the timers, the stack, `run`,
`wait_x` and `fault` are the spec's decision D7, the clear screen D8, the font's place D9 and its
bytes general knowledge (log entries 3 and 4). -/
def Obligations.ResetLeavesTheseValues : Prop :=
  (∀ r, State.reset.getV r = 0) ∧ State.reset.i = 0 ∧ State.reset.pc = 0x200 ∧
  State.reset.stack = [] ∧ State.reset.dt = 0 ∧ State.reset.st = 0 ∧
  (∀ px py, fbGet State.reset.fb px py = false) ∧
  State.reset.run = .running ∧ State.reset.waitX = 0 ∧ State.reset.fault = none ∧
  (∀ a, a < 0x050 ∨ 0x0A0 ≤ a → memGet State.reset.mem a = 0) ∧
  readBytes State.reset.mem 0x050 5 = [0xF0, 0x90, 0x90, 0x90, 0xF0] ∧
  readBytes State.reset.mem 0x055 5 = [0x20, 0x60, 0x20, 0x20, 0x70] ∧
  readBytes State.reset.mem 0x05A 5 = [0xF0, 0x10, 0xF0, 0x80, 0xF0] ∧
  readBytes State.reset.mem 0x05F 5 = [0xF0, 0x10, 0xF0, 0x10, 0xF0] ∧
  readBytes State.reset.mem 0x064 5 = [0x90, 0x90, 0xF0, 0x10, 0x10] ∧
  readBytes State.reset.mem 0x069 5 = [0xF0, 0x80, 0xF0, 0x10, 0xF0] ∧
  readBytes State.reset.mem 0x06E 5 = [0xF0, 0x80, 0xF0, 0x90, 0xF0] ∧
  readBytes State.reset.mem 0x073 5 = [0xF0, 0x10, 0x20, 0x40, 0x40] ∧
  readBytes State.reset.mem 0x078 5 = [0xF0, 0x90, 0xF0, 0x90, 0xF0] ∧
  readBytes State.reset.mem 0x07D 5 = [0xF0, 0x90, 0xF0, 0x10, 0xF0] ∧
  readBytes State.reset.mem 0x082 5 = [0xF0, 0x90, 0xF0, 0x90, 0x90] ∧
  readBytes State.reset.mem 0x087 5 = [0xE0, 0x90, 0xE0, 0x90, 0xE0] ∧
  readBytes State.reset.mem 0x08C 5 = [0xF0, 0x80, 0x80, 0x80, 0xF0] ∧
  readBytes State.reset.mem 0x091 5 = [0xE0, 0x90, 0x90, 0x90, 0xE0] ∧
  readBytes State.reset.mem 0x096 5 = [0xF0, 0x80, 0xF0, 0x80, 0xF0] ∧
  readBytes State.reset.mem 0x09B 5 = [0xF0, 0x80, 0xF0, 0x80, 0x80]

/-- The ROM load (R341): an image of at most 3584 bytes is copied to 0x200 and on, the rest of
memory is as reset leaves it; a longer one is refused as RomTooLarge and gives no state. -/
def Obligations.RomLoadCopiesOrRefuses : Prop :=
  ∀ (rom : List Byte) (inputs : List TickInput),
    (rom.length ≤ 3584 →
      ∃ t, boot rom inputs = .next t ∧
        (∀ k, k < rom.length → memGet t.mem (0x200 + k) = rom.getD k 0) ∧
        (∀ a, 0x200 + rom.length ≤ a → memGet t.mem a = 0) ∧
        (∀ a, a < 0x200 → memGet t.mem a = memGet State.reset.mem a) ∧
        t = { State.reset with mem := t.mem, inputs := inputs }) ∧
    (3584 < rom.length → boot rom inputs = .refused .romTooLarge)

/-- The invariant holds after reset. -/
def Obligations.ResetMeetsInvariant : Prop := Inv State.reset

/-- The invariant holds after reset with any ROM that is not refused, for any inputs. -/
def Obligations.BootMeetsInvariant : Prop :=
  ∀ (rom : List Byte) (inputs : List TickInput) (t : State), boot rom inputs = .next t → Inv t

/-! ### The whole machine -/

/-- Every step keeps the invariant: canonical memory inside the array, `PC` and `I` below 0x1000, at
most 16 return addresses, each below 0x1000, a fatal error only in Halted with its `PC`. That `PC`
stays at the address the error records is the spec's decision D5 (log entry 9). -/
def Obligations.StepKeepsInvariant : Prop :=
  ∀ s t : State, Inv s → step s = .next t → Inv t

/-- Every step of every state answers a next state: no fault, no refusal. -/
def Obligations.StepAlwaysAnswersNext : Prop := ∀ s : State, ∃ t, step s = .next t

/-- What an instruction leaves unchanged, for all 35 (10_state.md sections 2, 3, 5, 8; 20_memory.md
section 3): only the registers and parts of its row change, and memory only inside its block. -/
def Obligations.InstructionsKeepTheirFrames : Prop :=
  ∀ (i : Instr) (s t : State), exec i s = .next t → t.run ≠ .halted →
    Frame (mayWriteParts i) (mayWriteRegs i) s t ∧
    (Memory.wf s.mem → MemSameOutside s.i.toNat (storeWidth i) s t)

/-- Fatal errors are precise (60_exceptions.md section 1; the spec's decision D5, log entry 9): a
step that records one leaves everything else but `run` as it was, and records the fetch address and
the fetched word, or no word when the fetch failed. -/
def Obligations.FatalErrorsArePrecise : Prop :=
  ∀ s t : State, step s = .next t → s.fault = none → t.fault ≠ none →
    ∃ kind, t =
      { s with fault := some { kind := kind, pc := s.pc, opcode := s.fetch }, run := .halted }

/-- A Running tick without a quit ends in Halted exactly when the fetch fails, the word selects no
instruction, or the instruction's own check fails (60_exceptions.md section 1, order of checks). -/
def Obligations.FatalErrorsExactlyWhen : Prop :=
  ∀ s t : State, s.run = .running → s.now.quit = false → step s = .next t →
    (t.run = .halted ↔
      s.fetch = none ∨
      ∃ op, s.fetch = some op ∧
        ((∀ i, decode op ≠ .ok i) ∨ ∃ i, decode op = .ok i ∧ ownFault i s ≠ none))
end

