-- ==== Sys2Proof/Laws/Decode.lean ====
section
/-! SUPPORT. The fields of a word put together from its parts, for each way the formats put one
together (30_encoding.md R83, R85), and the parts of a word put back together. -/

namespace Sys2Proof

/-! ### The bits of a word put together -/

theorem getLsbD_addr (f : Nibble) (a : Addr) (i : Nat) :
    (f ++ a : Word).getLsbD i = if i < 12 then a.getLsbD i else f.getLsbD (i - 12) :=
  BitVec.getLsbD_append

theorem getLsbD_byte (f : Nibble) (x : Reg) (b : Byte) (i : Nat) :
    (f ++ x ++ b : Word).getLsbD i =
      if i < 8 then b.getLsbD i else if i - 8 < 4 then x.getLsbD (i - 8)
        else f.getLsbD (i - 8 - 4) := by
  rw [← BitVec.getLsbD_append]
  exact BitVec.getLsbD_append

theorem getLsbD_nibbles (f : Nibble) (x y : Reg) (n : Nibble) (i : Nat) :
    (f ++ x ++ y ++ n : Word).getLsbD i =
      if i < 4 then n.getLsbD i else if i - 4 < 4 then y.getLsbD (i - 4)
        else if i - 4 - 4 < 4 then x.getLsbD (i - 4 - 4) else f.getLsbD (i - 4 - 4 - 4) := by
  rw [← BitVec.getLsbD_append, ← BitVec.getLsbD_append]
  exact BitVec.getLsbD_append

theorem getLsbD_wordOfBytes (hi lo : Byte) (i : Nat) :
    (wordOfBytes hi lo).getLsbD i = if i < 8 then lo.getLsbD i else hi.getLsbD (i - 8) :=
  BitVec.getLsbD_append

/-! ### Format A: a family and a 12-bit address -/

@[simp] theorem fieldFamily_addr (f : Nibble) (a : Addr) : fieldFamily (f ++ a : Word) = f := by
  apply BitVec.eq_of_getLsbD_eq
  intro i hi
  simp [fieldFamily, getLsbD_addr, hi]

@[simp] theorem fieldNNN_addr (f : Nibble) (a : Addr) : fieldNNN (f ++ a : Word) = a := by
  apply BitVec.eq_of_getLsbD_eq
  intro i hi
  simp [fieldNNN, getLsbD_addr, hi]

/-! ### Formats XNN and XSS: a family, a register, a byte -/

@[simp] theorem fieldFamily_byte (f : Nibble) (x : Reg) (b : Byte) :
    fieldFamily (f ++ x ++ b : Word) = f := by
  apply BitVec.eq_of_getLsbD_eq
  intro i hi
  have h1 : ¬ 12 + i < 8 := by omega
  have h2 : ¬ 12 + i - 8 < 4 := by omega
  have h3 : 12 + i - 8 - 4 = i := by omega
  simp [fieldFamily, getLsbD_byte, hi, h1, h2, h3]

@[simp] theorem fieldX_byte (f : Nibble) (x : Reg) (b : Byte) :
    fieldX (f ++ x ++ b : Word) = x := by
  apply BitVec.eq_of_getLsbD_eq
  intro i hi
  simp [fieldX, getLsbD_byte, hi]

@[simp] theorem fieldNN_byte (f : Nibble) (x : Reg) (b : Byte) :
    fieldNN (f ++ x ++ b : Word) = b := by
  apply BitVec.eq_of_getLsbD_eq
  intro i hi
  simp [fieldNN, getLsbD_byte, hi]

/-! ### Formats XY, XYS, XS, XYN: four nibbles -/

@[simp] theorem fieldFamily_nibbles (f : Nibble) (x y : Reg) (n : Nibble) :
    fieldFamily (f ++ x ++ y ++ n : Word) = f := by
  apply BitVec.eq_of_getLsbD_eq
  intro i hi
  have h1 : ¬ 12 + i < 4 := by omega
  have h2 : ¬ 12 + i - 4 < 4 := by omega
  have h3 : ¬ 12 + i - 4 - 4 < 4 := by omega
  have h4 : 12 + i - 4 - 4 - 4 = i := by omega
  simp [fieldFamily, getLsbD_nibbles, hi, h1, h2, h3, h4]

@[simp] theorem fieldX_nibbles (f : Nibble) (x y : Reg) (n : Nibble) :
    fieldX (f ++ x ++ y ++ n : Word) = x := by
  apply BitVec.eq_of_getLsbD_eq
  intro i hi
  have h1 : ¬ 8 + i < 4 := by omega
  have h2 : ¬ 8 + i - 4 < 4 := by omega
  have h3 : 8 + i - 4 - 4 = i := by omega
  simp [fieldX, getLsbD_nibbles, hi, h1, h2, h3]

@[simp] theorem fieldY_nibbles (f : Nibble) (x y : Reg) (n : Nibble) :
    fieldY (f ++ x ++ y ++ n : Word) = y := by
  apply BitVec.eq_of_getLsbD_eq
  intro i hi
  simp [fieldY, getLsbD_nibbles, hi]

@[simp] theorem fieldN_nibbles (f : Nibble) (x y : Reg) (n : Nibble) :
    fieldN (f ++ x ++ y ++ n : Word) = n := by
  apply BitVec.eq_of_getLsbD_eq
  intro i hi
  simp [fieldN, getLsbD_nibbles, hi]

/-! ### A word is its parts put together -/

theorem word_eq_addr (op : Word) : (fieldFamily op ++ fieldNNN op : Word) = op := by
  apply BitVec.eq_of_getLsbD_eq
  intro i hi
  simp only [getLsbD_addr, fieldFamily, fieldNNN, BitVec.getLsbD_extractLsb']
  by_cases h : i < 12
  · simp [h]
  · have h1 : i - 12 < 4 := by omega
    have h2 : 12 + (i - 12) = i := by omega
    simp [h, h1, h2]

theorem word_eq_byte (op : Word) : (fieldFamily op ++ fieldX op ++ fieldNN op : Word) = op := by
  apply BitVec.eq_of_getLsbD_eq
  intro i hi
  simp only [getLsbD_byte, fieldFamily, fieldX, fieldNN, BitVec.getLsbD_extractLsb']
  by_cases h : i < 8
  · simp [h]
  · by_cases h' : i - 8 < 4
    · have h2 : 8 + (i - 8) = i := by omega
      simp [h, h', h2]
    · have h1 : i - 8 - 4 < 4 := by omega
      have h2 : 12 + (i - 8 - 4) = i := by omega
      simp [h, h', h1, h2]

theorem word_eq_nibbles (op : Word) :
    (fieldFamily op ++ fieldX op ++ fieldY op ++ fieldN op : Word) = op := by
  apply BitVec.eq_of_getLsbD_eq
  intro i hi
  simp only [getLsbD_nibbles, fieldFamily, fieldX, fieldY, fieldN,
    BitVec.getLsbD_extractLsb']
  by_cases h : i < 4
  · simp [h]
  · by_cases h' : i - 4 < 4
    · have h2 : 4 + (i - 4) = i := by omega
      simp [h, h', h2]
    · by_cases h'' : i - 4 - 4 < 4
      · have h2 : 8 + (i - 4 - 4) = i := by omega
        simp [h, h', h'', h2]
      · have h1 : i - 4 - 4 - 4 < 4 := by omega
        have h2 : 12 + (i - 4 - 4 - 4) = i := by omega
        simp [h, h', h'', h1, h2]

/-! ### Bytes in memory -/

/-- A word read back from its two bytes (R57). -/
theorem wordOfBytes_bytesOfWord (op : Word) :
    wordOfBytes (op.extractLsb' 8 8) (op.extractLsb' 0 8) = op := by
  apply BitVec.eq_of_getLsbD_eq
  intro i hi
  simp only [getLsbD_wordOfBytes, BitVec.getLsbD_extractLsb']
  by_cases h : i < 8
  · simp [h]
  · have h1 : i - 8 < 8 := by omega
    have h2 : 8 + (i - 8) = i := by omega
    simp [h, h1, h2]

/-! ### The choice of an instruction -/

/-- Away from the two literal words the family decides (R86, R87). -/
theorem decode_eq_selectFamily {op : Word} (h1 : op ≠ 0x00E0) (h2 : op ≠ 0x00EE) :
    decode op = selectFamily (describe op) := by
  simp only [decode, select, describe, h1, h2, if_false]

/-- A word of a family other than 0 is no literal word. -/
theorem ne_literal_of_family {op : Word} (h : fieldFamily op ≠ 0) :
    op ≠ 0x00E0 ∧ op ≠ 0x00EE := by
  constructor <;> (rintro rfl; exact h (by decide))

/-- The family decides for every word of a family other than 0. -/
theorem decode_of_family {op : Word} (h : fieldFamily op ≠ 0) :
    decode op = selectFamily (describe op) :=
  decode_eq_selectFamily (ne_literal_of_family h).1 (ne_literal_of_family h).2

/-- The family decides for a word put together as format A. -/
theorem decode_addr (f : Nibble) (a : Addr) (h : f ≠ 0) :
    decode (f ++ a : Word) = selectFamily (describe (f ++ a : Word)) :=
  decode_of_family (by simpa using h)

/-- The family decides for a word put together as format XNN or XSS. -/
theorem decode_byte (f : Nibble) (x : Reg) (b : Byte) (h : f ≠ 0) :
    decode (f ++ x ++ b : Word) = selectFamily (describe (f ++ x ++ b : Word)) :=
  decode_of_family (by simpa using h)

/-- The family decides for a word put together from four nibbles. -/
theorem decode_nibbles (f : Nibble) (x y : Reg) (n : Nibble) (h : f ≠ 0) :
    decode (f ++ x ++ y ++ n : Word) = selectFamily (describe (f ++ x ++ y ++ n : Word)) :=
  decode_of_family (by simpa using h)

/-- A field that equals a number is that number's bit vector. -/
theorem eq_ofNat_of_toNat {w n : Nat} {f : BitVec w} (h : f.toNat = n) : f = BitVec.ofNat w n := by
  subst h
  simp

end Sys2Proof
end

