-- ==== Sys2Proof/Laws/Display.lean ====
section
/-! SUPPORT. The Display: a pixel after a write, which pixels a sprite covers, and what a sequence
of pixel inversions does. -/

namespace Sys2Proof.Machine

/-- A pixel after a write: the value where it was written, the old value elsewhere. -/
@[simp] theorem fbGet_fbSet (fb : Framebuffer) (p q : Fin 64 × Fin 32) (b : Bool) :
    fbGet (fbSet fb p.1 p.2 b) q.1 q.2 = if q = p then b else fbGet fb q.1 q.2 := by
  obtain ⟨px, py⟩ := p
  obtain ⟨qx, qy⟩ := q
  simp only [fbGet, fbSet, Fin.getElem_fin, Vector.getElem_set, Prod.mk.injEq, Fin.ext_iff]
  by_cases hx : qx.val = px.val
  · by_cases hy : qy.val = py.val
    · simp [hx, hy]
    · have : ¬ py.val = qy.val := fun h => hy h.symm
      simp [hx, hy, this]
  · have : ¬ px.val = qx.val := fun h => hx h.symm
    simp [hx, this]

@[simp] theorem fbGet_blank (px : Fin 64) (py : Fin 32) :
    fbGet blankFramebuffer px py = false := by
  simp [fbGet, blankFramebuffer]

/-- Two framebuffers with the same pixels are equal. -/
theorem framebuffer_ext {f g : Framebuffer} (h : ∀ px py, fbGet f px py = fbGet g px py) :
    f = g := by
  apply Vector.ext
  intro i hi
  apply Vector.ext
  intro j hj
  exact h ⟨i, hi⟩ ⟨j, hj⟩

theorem mem_rowOffsets {row : Byte} {b : Nat} :
    b ∈ rowOffsets row ↔ b < 8 ∧ row.getLsbD (7 - b) = true := by
  simp [rowOffsets]

/-- The pixels under the set bits of a sprite (45_random_display.md R255). -/
theorem mem_spritePixels {x0 y0 : Byte} {r : Nat} {rows : List Byte} {p : Fin 64 × Fin 32} :
    p ∈ spritePixels x0 y0 r rows ↔
      ∃ k b, k < rows.length ∧ b < 8 ∧ (rows.getD k 0).getLsbD (7 - b) = true ∧
        p.1.val = (x0.toNat + b) % 64 ∧ p.2.val = (y0.toNat + (r + k)) % 32 := by
  induction rows generalizing r with
  | nil => simp [spritePixels]
  | cons row rest ih =>
    simp only [spritePixels, List.mem_append, List.mem_map, mem_rowOffsets, ih]
    constructor
    · rintro (⟨b, ⟨hb, hbit⟩, rfl⟩ | ⟨k, b, hk, hb, hbit, h1, h2⟩)
      · exact ⟨0, b, by simp, hb, by simpa using hbit, rfl, rfl⟩
      · refine ⟨k + 1, b, by simpa using hk, hb, by simpa using hbit, h1, ?_⟩
        rw [h2]; congr 2; omega
    · rintro ⟨k, b, hk, hb, hbit, h1, h2⟩
      cases k with
      | zero =>
        exact .inl ⟨b, ⟨hb, by simpa using hbit⟩, Prod.ext (Fin.ext h1.symm) (Fin.ext h2.symm)⟩
      | succ k =>
        refine .inr ⟨k, b, by simpa using hk, hb, by simpa using hbit, h1, ?_⟩
        rw [h2]; congr 2; omega

/-- No pixel lies under two set bits of a sprite of at most 32 rows. -/
theorem nodup_spritePixels (x0 y0 : Byte) (r : Nat) (rows : List Byte)
    (h : r + rows.length ≤ 32) : (spritePixels x0 y0 r rows).Nodup := by
  induction rows generalizing r with
  | nil => simp [spritePixels]
  | cons row rest ih =>
    simp only [List.length_cons] at h
    simp only [spritePixels, List.nodup_append]
    refine ⟨?_, ih (r + 1) (by omega), ?_⟩
    · refine List.Nodup.map_on ?_ (List.nodup_range.filter _)
      intro a ha b hb e
      have ha := (mem_rowOffsets.1 ha).1
      have hb := (mem_rowOffsets.1 hb).1
      simp only [Prod.mk.injEq, Fin.ext_iff, Fin.val_ofNat] at e
      omega
    · rintro p hp q hq rfl
      obtain ⟨b, _, rfl⟩ := List.mem_map.1 hp
      obtain ⟨k, _, hk, _, _, _, h2⟩ := mem_spritePixels.1 hq
      simp only [Fin.val_ofNat] at h2
      omega

/-- Inverting each pixel of a list without repeats inverts exactly the listed pixels, and counts a
collision exactly when a listed pixel was lit. -/
theorem foldl_plot (l : List (Fin 64 × Fin 32)) (hl : l.Nodup) (fb : Framebuffer) (c : Bool) :
    (∀ q : Fin 64 × Fin 32, fbGet (l.foldl plot (fb, c)).1 q.1 q.2 =
      if q ∈ l then !fbGet fb q.1 q.2 else fbGet fb q.1 q.2) ∧
    ((l.foldl plot (fb, c)).2 = true ↔ c = true ∨ ∃ q ∈ l, fbGet fb q.1 q.2 = true) := by
  induction l generalizing fb c with
  | nil => simp
  | cons p rest ih =>
    obtain ⟨hp, hrest⟩ := List.nodup_cons.1 hl
    obtain ⟨ih1, ih2⟩ := ih hrest (fbSet fb p.1 p.2 (!fbGet fb p.1 p.2)) (c || fbGet fb p.1 p.2)
    simp only [List.foldl_cons, plot]
    constructor
    · intro q
      rw [ih1 q, fbGet_fbSet]
      by_cases hq : q = p
      · subst hq; simp [hp]
      · simp [hq]
    · rw [ih2, Bool.or_eq_true, or_assoc]
      refine or_congr_right ?_
      constructor
      · rintro (h | ⟨q, hq, h⟩)
        · exact ⟨p, by simp, h⟩
        · have hqp : q ≠ p := fun e => hp (e ▸ hq)
          rw [fbGet_fbSet, if_neg hqp] at h
          exact ⟨q, by simp [hq], h⟩
      · rintro ⟨q, hq, h⟩
        rcases List.mem_cons.1 hq with rfl | hq
        · exact .inl h
        · have hqp : q ≠ p := fun e => hp (e ▸ hq)
          exact .inr ⟨q, hq, by rw [fbGet_fbSet, if_neg hqp]; exact h⟩

end Sys2Proof.Machine
end

