-- ==== Sys2Proof/Laws/Memory.lean ====
section
/-! SUPPORT. Memory: a read after a write, and every memory operation keeps the canonical form. -/

namespace Sys2Proof.Machine

/-- The addresses of the list rise strictly. -/
def Rising (m : Memory) : Prop := m.Pairwise fun c d => c.1 < d.1

theorem Memory.wf.rising {m : Memory} (h : Memory.wf m) : Rising m := h.1

theorem Rising.tail {c : Host.Cell} {m : Memory} (h : Rising (c :: m)) : Rising m :=
  (List.pairwise_cons.1 h).2

theorem Rising.head_lt {c : Host.Cell} {m : Memory} (h : Rising (c :: m)) :
    ∀ d ∈ m, c.1 < d.1 := (List.pairwise_cons.1 h).1

/-- An address that no entry has reads as its reset content. -/
theorem memGet_of_not_listed {m : Memory} {a : Nat} (h : ∀ c ∈ m, c.1 ≠ a) :
    memGet m a = resetByte a := by
  induction m with
  | nil => rfl
  | cons c rest ih =>
    obtain ⟨k, v⟩ := c
    have hk : k ≠ a := h (k, v) (by simp)
    simp only [memGet, hk, if_false]
    exact ih fun d hd => h d (by simp [hd])

/-- Nothing but the new address and old addresses is listed after a write. -/
theorem mem_memSet {m : Memory} {a : Nat} {b : Byte} {c : Host.Cell} (h : c ∈ memSet m a b) :
    c ∈ m ∨ (c = (a, b) ∧ b ≠ resetByte a) := by
  induction m with
  | nil => simp only [memSet] at h; split at h <;> simp_all
  | cons d rest ih =>
    obtain ⟨k, v⟩ := d
    simp only [memSet] at h
    split at h
    · split at h
      · exact .inl h
      · rcases List.mem_cons.1 h with rfl | h
        · exact .inr ⟨rfl, by assumption⟩
        · exact .inl h
    · split at h
      · split at h
        · exact .inl (List.mem_cons_of_mem _ h)
        · rcases List.mem_cons.1 h with rfl | h
          · exact .inr ⟨rfl, by assumption⟩
          · exact .inl (List.mem_cons_of_mem _ h)
      · rcases List.mem_cons.1 h with rfl | h
        · simp
        · rcases ih h with h | h <;> simp [h]

/-- A write keeps the addresses rising. -/
theorem Rising.memSet {m : Memory} (h : Rising m) (a : Nat) (b : Byte) :
    Rising (memSet m a b) := by
  induction m with
  | nil => simp only [Machine.memSet]; split <;> simp [Rising]
  | cons d rest ih =>
    obtain ⟨k, v⟩ := d
    have hlt := h.head_lt
    simp only [Machine.memSet]
    split
    · split
      · exact h
      · refine List.pairwise_cons.2 ⟨?_, h⟩
        intro c hc
        rcases List.mem_cons.1 hc with rfl | hc
        · assumption
        · exact Nat.lt_trans (by assumption) (hlt c hc)
    · split
      · split
        · exact h.tail
        · next heq _ =>
          subst heq
          exact List.pairwise_cons.2 ⟨hlt, h.tail⟩
      · refine List.pairwise_cons.2 ⟨?_, ih h.tail⟩
        intro c hc
        rcases mem_memSet hc with hc | ⟨rfl, _⟩
        · exact hlt c hc
        · show k < a
          omega

/-- A read after a write: the byte written at that address, the old byte elsewhere. -/
theorem memGet_memSet {m : Memory} (h : Rising m) (a a' : Nat) (b : Byte) :
    memGet (memSet m a b) a' = if a' = a then b else memGet m a' := by
  induction m with
  | nil =>
    by_cases hb : b = resetByte a
    · by_cases ha : a' = a
      · simp [memSet, memGet, hb, ha]
      · simp [memSet, memGet, hb, ha]
    · simp only [memSet, hb, if_false, memGet, eq_comm]
  | cons d rest ih =>
    obtain ⟨k, v⟩ := d
    have hlt : ∀ c ∈ rest, k < c.1 := h.head_lt
    have fresh : ∀ {x}, x ≤ k → memGet rest x = resetByte x := fun hx =>
      memGet_of_not_listed fun c hc => by have := hlt c hc; omega
    simp only [memSet]
    split
    · next hak =>
      split
      · next hb =>
        by_cases ha : a' = a
        · subst ha
          have : k ≠ a' := by omega
          simp [memGet, this, fresh (Nat.le_of_lt hak), hb]
        · simp [ha]
      · simp only [memGet, eq_comm]
    · split
      · next hak =>
        subst hak
        split
        · next hb =>
          by_cases ha : a' = a
          · subst ha; simp [fresh (Nat.le_refl _), hb]
          · have : a ≠ a' := fun e => ha e.symm
            simp [memGet, ha, this]
        · by_cases ha : a' = a
          · subst ha; simp [memGet]
          · have : a ≠ a' := fun e => ha e.symm
            simp [memGet, ha, this]
      · next hak =>
        simp only [memGet, ih h.tail]
        by_cases hk : k = a'
        · subst hk
          have : k ≠ a := fun e => hak e.symm
          simp [this]
        · simp [hk]

/-- A write inside memory keeps the canonical form. -/
theorem Memory.wf.memSet {m : Memory} (h : Memory.wf m) {a : Nat} (ha : a < Config.memSize)
    (b : Byte) : Memory.wf (memSet m a b) := by
  refine ⟨h.rising.memSet a b, fun c hc => ?_⟩
  rcases mem_memSet hc with hc | ⟨rfl, hb⟩
  · exact h.2 c hc
  · exact ⟨ha, hb⟩

/-- Storing bytes inside memory keeps the canonical form. -/
theorem Memory.wf.writeBytes {m : Memory} (h : Memory.wf m) (bs : List Byte) (base : Nat)
    (hb : base + bs.length ≤ Config.memSize) : Memory.wf (writeBytes m base bs) := by
  induction bs generalizing m base with
  | nil => exact h
  | cons b rest ih =>
    simp only [List.length_cons] at hb
    exact ih (h.memSet (by omega) b) (base + 1) (by omega)

/-- A read after storing bytes: the stored byte inside the block, the old byte outside it. -/
theorem memGet_writeBytes {m : Memory} (h : Rising m) (bs : List Byte) (base a : Nat) :
    memGet (writeBytes m base bs) a =
      if base ≤ a ∧ a < base + bs.length then bs.getD (a - base) 0 else memGet m a := by
  induction bs generalizing m base with
  | nil =>
    rw [if_neg (by simp only [List.length_nil]; omega)]
    rfl
  | cons b rest ih =>
    simp only [writeBytes, ih (h.memSet base b), memGet_memSet h, List.length_cons]
    by_cases h1 : a = base
    · subst h1
      have : ¬ (a + 1 ≤ a ∧ a < a + 1 + rest.length) := by omega
      simp
    · by_cases h2 : base + 1 ≤ a ∧ a < base + 1 + rest.length
      · have h3 : base ≤ a ∧ a < base + (rest.length + 1) := by omega
        have h4 : a - base = (a - (base + 1)) + 1 := by omega
        rw [if_pos h2, if_pos h3, h4, List.getD_cons_succ]
      · have h3 : ¬ (base ≤ a ∧ a < base + (rest.length + 1)) := by omega
        rw [if_neg h2, if_neg h3, if_neg h1]

/-- Every byte outside a stored block reads as before. -/
theorem memGet_writeBytes_outside {m : Memory} (h : Rising m) (bs : List Byte) (base a : Nat)
    (ha : a < base ∨ base + bs.length ≤ a) : memGet (writeBytes m base bs) a = memGet m a := by
  rw [memGet_writeBytes h, if_neg (by omega)]

@[simp] theorem length_readBytes (m : Memory) (base len : Nat) :
    (readBytes m base len).length = len := by
  induction len generalizing base with
  | zero => rfl
  | succ n ih => simp [readBytes, ih]

/-- The `k`-th byte of a block read from `base` is the byte at `base + k`. -/
theorem getElem_readBytes (m : Memory) (base len k : Nat) (hk : k < len) :
    (readBytes m base len)[k]'(by simpa using hk) = memGet m (base + k) := by
  induction len generalizing base k with
  | zero => omega
  | succ n ih =>
    cases k with
    | zero => rfl
    | succ k =>
      simp only [readBytes, List.getElem_cons_succ]
      rw [ih (base + 1) k (by omega)]
      congr 1
      omega

theorem blockInRange_iff (base len : Nat) :
    blockInRange base len = true ↔ len = 0 ∨ base + len ≤ 0x1000 := by
  rw [blockInRange, Bool.or_eq_true, beq_iff_eq, decide_eq_true_iff, Config.memSize]

/-- What a checked read can do: the whole block, or nothing when a byte of it is out of range. -/
theorem readBlock_cases (s : State) (base len : Nat) :
    (blockInRange base len = true ∧ s.readBlock base len = some (readBytes s.mem base len)) ∨
    (blockInRange base len = false ∧ s.readBlock base len = none) := by
  unfold State.readBlock
  cases h : blockInRange base len <;> simp

/-- What a checked write can do: the whole block, or nothing when a byte of it is out of range. -/
theorem writeBlock_cases (s : State) (base : Nat) (bs : List Byte) :
    (blockInRange base bs.length = true ∧
      s.writeBlock base bs = some { s with mem := writeBytes s.mem base bs }) ∨
    (blockInRange base bs.length = false ∧ s.writeBlock base bs = none) := by
  unfold State.writeBlock
  cases h : blockInRange base bs.length <;> simp

end Sys2Proof.Machine
end

