-- ==== Sys2Proof/Laws/State.lean ====
section
/-! SUPPORT. One lemma for each field of the state under each update, so that no proof unfolds a
record update, and the lemmas of the register file. -/

namespace Sys2Proof.Machine

/-! ### `State.advance` -/

@[simp] theorem State.advance_regs (s : State) : s.advance.regs = s.regs := rfl
@[simp] theorem State.advance_i (s : State) : s.advance.i = s.i := rfl
@[simp] theorem State.advance_pc (s : State) : s.advance.pc = wrap12 (s.pc.toNat + 2) := rfl
@[simp] theorem State.advance_stack (s : State) : s.advance.stack = s.stack := rfl
@[simp] theorem State.advance_dt (s : State) : s.advance.dt = s.dt := rfl
@[simp] theorem State.advance_st (s : State) : s.advance.st = s.st := rfl
@[simp] theorem State.advance_mem (s : State) : s.advance.mem = s.mem := rfl
@[simp] theorem State.advance_fb (s : State) : s.advance.fb = s.fb := rfl
@[simp] theorem State.advance_run (s : State) : s.advance.run = s.run := rfl
@[simp] theorem State.advance_waitX (s : State) : s.advance.waitX = s.waitX := rfl
@[simp] theorem State.advance_fault (s : State) : s.advance.fault = s.fault := rfl
@[simp] theorem State.advance_inputs (s : State) : s.advance.inputs = s.inputs := rfl
@[simp] theorem State.advance_ticks (s : State) : s.advance.ticks = s.ticks := rfl

/-! ### `State.setPc` -/

@[simp] theorem State.setPc_regs (s : State) (v : Word) : (s.setPc v).regs = s.regs := rfl
@[simp] theorem State.setPc_i (s : State) (v : Word) : (s.setPc v).i = s.i := rfl
@[simp] theorem State.setPc_pc (s : State) (v : Word) : (s.setPc v).pc = v := rfl
@[simp] theorem State.setPc_stack (s : State) (v : Word) : (s.setPc v).stack = s.stack := rfl
@[simp] theorem State.setPc_dt (s : State) (v : Word) : (s.setPc v).dt = s.dt := rfl
@[simp] theorem State.setPc_st (s : State) (v : Word) : (s.setPc v).st = s.st := rfl
@[simp] theorem State.setPc_mem (s : State) (v : Word) : (s.setPc v).mem = s.mem := rfl
@[simp] theorem State.setPc_fb (s : State) (v : Word) : (s.setPc v).fb = s.fb := rfl
@[simp] theorem State.setPc_run (s : State) (v : Word) : (s.setPc v).run = s.run := rfl
@[simp] theorem State.setPc_waitX (s : State) (v : Word) : (s.setPc v).waitX = s.waitX := rfl
@[simp] theorem State.setPc_fault (s : State) (v : Word) : (s.setPc v).fault = s.fault := rfl
@[simp] theorem State.setPc_inputs (s : State) (v : Word) : (s.setPc v).inputs = s.inputs := rfl
@[simp] theorem State.setPc_ticks (s : State) (v : Word) : (s.setPc v).ticks = s.ticks := rfl

/-! ### `State.setI` -/

@[simp] theorem State.setI_regs (s : State) (v : Word) : (s.setI v).regs = s.regs := rfl
@[simp] theorem State.setI_i (s : State) (v : Word) : (s.setI v).i = v := rfl
@[simp] theorem State.setI_pc (s : State) (v : Word) : (s.setI v).pc = s.pc := rfl
@[simp] theorem State.setI_stack (s : State) (v : Word) : (s.setI v).stack = s.stack := rfl
@[simp] theorem State.setI_dt (s : State) (v : Word) : (s.setI v).dt = s.dt := rfl
@[simp] theorem State.setI_st (s : State) (v : Word) : (s.setI v).st = s.st := rfl
@[simp] theorem State.setI_mem (s : State) (v : Word) : (s.setI v).mem = s.mem := rfl
@[simp] theorem State.setI_fb (s : State) (v : Word) : (s.setI v).fb = s.fb := rfl
@[simp] theorem State.setI_run (s : State) (v : Word) : (s.setI v).run = s.run := rfl
@[simp] theorem State.setI_waitX (s : State) (v : Word) : (s.setI v).waitX = s.waitX := rfl
@[simp] theorem State.setI_fault (s : State) (v : Word) : (s.setI v).fault = s.fault := rfl
@[simp] theorem State.setI_inputs (s : State) (v : Word) : (s.setI v).inputs = s.inputs := rfl
@[simp] theorem State.setI_ticks (s : State) (v : Word) : (s.setI v).ticks = s.ticks := rfl

/-! ### `State.setV` -/

@[simp] theorem State.setV_regs (s : State) (x : Reg) (b : Byte) :
    (s.setV x b).regs = s.regs.set x.toNat b x.isLt := rfl
@[simp] theorem State.setV_i (s : State) (x : Reg) (b : Byte) : (s.setV x b).i = s.i := rfl
@[simp] theorem State.setV_pc (s : State) (x : Reg) (b : Byte) : (s.setV x b).pc = s.pc := rfl
@[simp] theorem State.setV_stack (s : State) (x : Reg) (b : Byte) :
    (s.setV x b).stack = s.stack := rfl
@[simp] theorem State.setV_dt (s : State) (x : Reg) (b : Byte) : (s.setV x b).dt = s.dt := rfl
@[simp] theorem State.setV_st (s : State) (x : Reg) (b : Byte) : (s.setV x b).st = s.st := rfl
@[simp] theorem State.setV_mem (s : State) (x : Reg) (b : Byte) : (s.setV x b).mem = s.mem := rfl
@[simp] theorem State.setV_fb (s : State) (x : Reg) (b : Byte) : (s.setV x b).fb = s.fb := rfl
@[simp] theorem State.setV_run (s : State) (x : Reg) (b : Byte) : (s.setV x b).run = s.run := rfl
@[simp] theorem State.setV_waitX (s : State) (x : Reg) (b : Byte) :
    (s.setV x b).waitX = s.waitX := rfl
@[simp] theorem State.setV_fault (s : State) (x : Reg) (b : Byte) :
    (s.setV x b).fault = s.fault := rfl
@[simp] theorem State.setV_inputs (s : State) (x : Reg) (b : Byte) :
    (s.setV x b).inputs = s.inputs := rfl
@[simp] theorem State.setV_ticks (s : State) (x : Reg) (b : Byte) :
    (s.setV x b).ticks = s.ticks := rfl

/-! ### `State.raise` -/

@[simp] theorem State.raise_regs (s : State) (k : ErrorKind) (o : Option Word) :
    (s.raise k o).regs = s.regs := rfl
@[simp] theorem State.raise_i (s : State) (k : ErrorKind) (o : Option Word) :
    (s.raise k o).i = s.i := rfl
@[simp] theorem State.raise_pc (s : State) (k : ErrorKind) (o : Option Word) :
    (s.raise k o).pc = s.pc := rfl
@[simp] theorem State.raise_stack (s : State) (k : ErrorKind) (o : Option Word) :
    (s.raise k o).stack = s.stack := rfl
@[simp] theorem State.raise_dt (s : State) (k : ErrorKind) (o : Option Word) :
    (s.raise k o).dt = s.dt := rfl
@[simp] theorem State.raise_st (s : State) (k : ErrorKind) (o : Option Word) :
    (s.raise k o).st = s.st := rfl
@[simp] theorem State.raise_mem (s : State) (k : ErrorKind) (o : Option Word) :
    (s.raise k o).mem = s.mem := rfl
@[simp] theorem State.raise_fb (s : State) (k : ErrorKind) (o : Option Word) :
    (s.raise k o).fb = s.fb := rfl
@[simp] theorem State.raise_run (s : State) (k : ErrorKind) (o : Option Word) :
    (s.raise k o).run = .halted := rfl
@[simp] theorem State.raise_waitX (s : State) (k : ErrorKind) (o : Option Word) :
    (s.raise k o).waitX = s.waitX := rfl
@[simp] theorem State.raise_fault (s : State) (k : ErrorKind) (o : Option Word) :
    (s.raise k o).fault = some ⟨k, s.pc, o⟩ := rfl
@[simp] theorem State.raise_inputs (s : State) (k : ErrorKind) (o : Option Word) :
    (s.raise k o).inputs = s.inputs := rfl
@[simp] theorem State.raise_ticks (s : State) (k : ErrorKind) (o : Option Word) :
    (s.raise k o).ticks = s.ticks := rfl

/-! ### `State.countdown` -/

@[simp] theorem State.countdown_regs (s : State) : s.countdown.regs = s.regs := rfl
@[simp] theorem State.countdown_i (s : State) : s.countdown.i = s.i := rfl
@[simp] theorem State.countdown_pc (s : State) : s.countdown.pc = s.pc := rfl
@[simp] theorem State.countdown_stack (s : State) : s.countdown.stack = s.stack := rfl
@[simp] theorem State.countdown_dt (s : State) : s.countdown.dt = countTimer s.dt := rfl
@[simp] theorem State.countdown_st (s : State) : s.countdown.st = countTimer s.st := rfl
@[simp] theorem State.countdown_mem (s : State) : s.countdown.mem = s.mem := rfl
@[simp] theorem State.countdown_fb (s : State) : s.countdown.fb = s.fb := rfl
@[simp] theorem State.countdown_run (s : State) : s.countdown.run = s.run := rfl
@[simp] theorem State.countdown_waitX (s : State) : s.countdown.waitX = s.waitX := rfl
@[simp] theorem State.countdown_fault (s : State) : s.countdown.fault = s.fault := rfl
@[simp] theorem State.countdown_inputs (s : State) : s.countdown.inputs = s.inputs := rfl
@[simp] theorem State.countdown_ticks (s : State) : s.countdown.ticks = s.ticks := rfl

/-! ### `State.strobe` -/

@[simp] theorem State.strobe_regs (s : State) (b : Bool) : (s.strobe b).regs = s.regs := rfl
@[simp] theorem State.strobe_i (s : State) (b : Bool) : (s.strobe b).i = s.i := rfl
@[simp] theorem State.strobe_pc (s : State) (b : Bool) : (s.strobe b).pc = s.pc := rfl
@[simp] theorem State.strobe_stack (s : State) (b : Bool) : (s.strobe b).stack = s.stack := rfl
@[simp] theorem State.strobe_dt (s : State) (b : Bool) :
    (s.strobe b).dt = strobeTimer b s.dt (countTimer s.dt) := rfl
@[simp] theorem State.strobe_st (s : State) (b : Bool) :
    (s.strobe b).st = strobeTimer b s.st (countTimer s.st) := rfl
@[simp] theorem State.strobe_mem (s : State) (b : Bool) : (s.strobe b).mem = s.mem := rfl
@[simp] theorem State.strobe_fb (s : State) (b : Bool) : (s.strobe b).fb = s.fb := rfl
@[simp] theorem State.strobe_run (s : State) (b : Bool) : (s.strobe b).run = s.run := rfl
@[simp] theorem State.strobe_waitX (s : State) (b : Bool) : (s.strobe b).waitX = s.waitX := rfl
@[simp] theorem State.strobe_fault (s : State) (b : Bool) : (s.strobe b).fault = s.fault := rfl
@[simp] theorem State.strobe_inputs (s : State) (b : Bool) : (s.strobe b).inputs = s.inputs := rfl
@[simp] theorem State.strobe_ticks (s : State) (b : Bool) : (s.strobe b).ticks = s.ticks := rfl

/-! ### `State.popInput` -/

@[simp] theorem State.popInput_regs (s : State) : s.popInput.regs = s.regs := rfl
@[simp] theorem State.popInput_i (s : State) : s.popInput.i = s.i := rfl
@[simp] theorem State.popInput_pc (s : State) : s.popInput.pc = s.pc := rfl
@[simp] theorem State.popInput_stack (s : State) : s.popInput.stack = s.stack := rfl
@[simp] theorem State.popInput_dt (s : State) : s.popInput.dt = s.dt := rfl
@[simp] theorem State.popInput_st (s : State) : s.popInput.st = s.st := rfl
@[simp] theorem State.popInput_mem (s : State) : s.popInput.mem = s.mem := rfl
@[simp] theorem State.popInput_fb (s : State) : s.popInput.fb = s.fb := rfl
@[simp] theorem State.popInput_run (s : State) : s.popInput.run = s.run := rfl
@[simp] theorem State.popInput_waitX (s : State) : s.popInput.waitX = s.waitX := rfl
@[simp] theorem State.popInput_fault (s : State) : s.popInput.fault = s.fault := rfl
@[simp] theorem State.popInput_inputs (s : State) : s.popInput.inputs = s.inputs.tail := rfl
@[simp] theorem State.popInput_ticks (s : State) : s.popInput.ticks = s.ticks + 1 := rfl

/-! ### `State.setResultFlag` -/

@[simp] theorem State.setResultFlag_i (s : State) (x : Reg) (r f : Byte) :
    (s.setResultFlag x r f).i = s.i := rfl
@[simp] theorem State.setResultFlag_pc (s : State) (x : Reg) (r f : Byte) :
    (s.setResultFlag x r f).pc = s.pc := rfl
@[simp] theorem State.setResultFlag_stack (s : State) (x : Reg) (r f : Byte) :
    (s.setResultFlag x r f).stack = s.stack := rfl
@[simp] theorem State.setResultFlag_dt (s : State) (x : Reg) (r f : Byte) :
    (s.setResultFlag x r f).dt = s.dt := rfl
@[simp] theorem State.setResultFlag_st (s : State) (x : Reg) (r f : Byte) :
    (s.setResultFlag x r f).st = s.st := rfl
@[simp] theorem State.setResultFlag_mem (s : State) (x : Reg) (r f : Byte) :
    (s.setResultFlag x r f).mem = s.mem := rfl
@[simp] theorem State.setResultFlag_fb (s : State) (x : Reg) (r f : Byte) :
    (s.setResultFlag x r f).fb = s.fb := rfl
@[simp] theorem State.setResultFlag_run (s : State) (x : Reg) (r f : Byte) :
    (s.setResultFlag x r f).run = s.run := rfl
@[simp] theorem State.setResultFlag_waitX (s : State) (x : Reg) (r f : Byte) :
    (s.setResultFlag x r f).waitX = s.waitX := rfl
@[simp] theorem State.setResultFlag_fault (s : State) (x : Reg) (r f : Byte) :
    (s.setResultFlag x r f).fault = s.fault := rfl
@[simp] theorem State.setResultFlag_inputs (s : State) (x : Reg) (r f : Byte) :
    (s.setResultFlag x r f).inputs = s.inputs := rfl
@[simp] theorem State.setResultFlag_ticks (s : State) (x : Reg) (r f : Byte) :
    (s.setResultFlag x r f).ticks = s.ticks := rfl

/-! ### `State.skipIf` -/

@[simp] theorem State.skipIf_regs (s : State) (c : Bool) : (s.skipIf c).regs = s.regs := rfl
@[simp] theorem State.skipIf_i (s : State) (c : Bool) : (s.skipIf c).i = s.i := rfl
@[simp] theorem State.skipIf_pc (s : State) (c : Bool) :
    (s.skipIf c).pc = if c then wrap12 (s.pc.toNat + 2) else s.pc := rfl
@[simp] theorem State.skipIf_stack (s : State) (c : Bool) : (s.skipIf c).stack = s.stack := rfl
@[simp] theorem State.skipIf_dt (s : State) (c : Bool) : (s.skipIf c).dt = s.dt := rfl
@[simp] theorem State.skipIf_st (s : State) (c : Bool) : (s.skipIf c).st = s.st := rfl
@[simp] theorem State.skipIf_mem (s : State) (c : Bool) : (s.skipIf c).mem = s.mem := rfl
@[simp] theorem State.skipIf_fb (s : State) (c : Bool) : (s.skipIf c).fb = s.fb := rfl
@[simp] theorem State.skipIf_run (s : State) (c : Bool) : (s.skipIf c).run = s.run := rfl
@[simp] theorem State.skipIf_waitX (s : State) (c : Bool) : (s.skipIf c).waitX = s.waitX := rfl
@[simp] theorem State.skipIf_fault (s : State) (c : Bool) : (s.skipIf c).fault = s.fault := rfl
@[simp] theorem State.skipIf_inputs (s : State) (c : Bool) : (s.skipIf c).inputs = s.inputs := rfl
@[simp] theorem State.skipIf_ticks (s : State) (c : Bool) : (s.skipIf c).ticks = s.ticks := rfl

/-! ### The register file -/

/-- A register after a write: the value where it was written, the old value elsewhere. -/
@[simp] theorem State.getV_setV (s : State) (x y : Reg) (b : Byte) :
    (s.setV x b).getV y = if y = x then b else s.getV y := by
  simp only [State.getV, State.setV, Vector.getElem_set, BitVec.toNat_inj, eq_comm]

/-- Two states with the same register file have the same registers. -/
theorem State.getV_congr {s t : State} (h : t.regs = s.regs) (y : Reg) : t.getV y = s.getV y := by
  simp only [State.getV, h]

@[simp] theorem State.getV_advance (s : State) (y : Reg) :
    s.advance.getV y = s.getV y := State.getV_congr (by simp) y
@[simp] theorem State.getV_setPc (s : State) (v : Word) (y : Reg) :
    (s.setPc v).getV y = s.getV y := State.getV_congr (by simp) y
@[simp] theorem State.getV_setI (s : State) (v : Word) (y : Reg) :
    (s.setI v).getV y = s.getV y := State.getV_congr (by simp) y
@[simp] theorem State.getV_raise (s : State) (k : ErrorKind) (o : Option Word) (y : Reg) :
    (s.raise k o).getV y = s.getV y := State.getV_congr (by simp) y
@[simp] theorem State.getV_countdown (s : State) (y : Reg) :
    s.countdown.getV y = s.getV y := State.getV_congr (by simp) y
@[simp] theorem State.getV_strobe (s : State) (b : Bool) (y : Reg) :
    (s.strobe b).getV y = s.getV y := State.getV_congr (by simp) y
@[simp] theorem State.getV_popInput (s : State) (y : Reg) :
    s.popInput.getV y = s.getV y := State.getV_congr (by simp) y
@[simp] theorem State.getV_skipIf (s : State) (c : Bool) (y : Reg) :
    (s.skipIf c).getV y = s.getV y := State.getV_congr (by simp) y

/-- The flag is written last: VF holds it, whatever `x` is (43_alu.md R180 c). -/
@[simp] theorem State.getV_setResultFlag (s : State) (x y : Reg) (r f : Byte) :
    (s.setResultFlag x r f).getV y = if y = regVF then f else if y = x then r else s.getV y := by
  simp only [State.setResultFlag, State.getV_setV]

/-! ### The tick's inputs -/

/-- The sampled inputs depend on the schedule and the tick number only. -/
theorem State.now_congr {s t : State} (hi : t.inputs = s.inputs) (ht : t.ticks = s.ticks) :
    t.now = s.now := by
  simp only [State.now, hi, ht]

@[simp] theorem State.now_advance (s : State) :
    s.advance.now = s.now := State.now_congr (by simp) (by simp)
@[simp] theorem State.now_setPc (s : State) (v : Word) :
    (s.setPc v).now = s.now := State.now_congr (by simp) (by simp)
@[simp] theorem State.now_setI (s : State) (v : Word) :
    (s.setI v).now = s.now := State.now_congr (by simp) (by simp)
@[simp] theorem State.now_setV (s : State) (x : Reg) (b : Byte) :
    (s.setV x b).now = s.now := State.now_congr (by simp) (by simp)
@[simp] theorem State.now_raise (s : State) (k : ErrorKind) (o : Option Word) :
    (s.raise k o).now = s.now := State.now_congr (by simp) (by simp)
@[simp] theorem State.now_countdown (s : State) :
    s.countdown.now = s.now := State.now_congr (by simp) (by simp)
@[simp] theorem State.now_strobe (s : State) (b : Bool) :
    (s.strobe b).now = s.now := State.now_congr (by simp) (by simp)
@[simp] theorem State.now_setResultFlag (s : State) (x : Reg) (r f : Byte) :
    (s.setResultFlag x r f).now = s.now := State.now_congr (by simp) (by simp)
@[simp] theorem State.now_skipIf (s : State) (c : Bool) :
    (s.skipIf c).now = s.now := State.now_congr (by simp) (by simp)

end Sys2Proof.Machine
end

