-- ==== Sys2Proof/Laws/Ops.lean ====
section
/-! SUPPORT. What each shared operation can do, said once: wrap, stack, register blocks, fetch,
timers, keys. -/

namespace Sys2Proof.Machine

/-! ### Values of `PC` and `I` -/

@[simp] theorem toNat_wrap12 (a : Nat) : (wrap12 a).toNat = a % 0x1000 := by
  simp only [wrap12, BitVec.toNat_ofNat]
  omega

theorem wrap12_lt (a : Nat) : (wrap12 a).toNat < 0x1000 := by
  rw [toNat_wrap12]
  omega

@[simp] theorem toNat_addrWord (nnn : Addr) : (addrWord nnn).toNat = nnn.toNat := by
  have := nnn.isLt
  simp only [addrWord, BitVec.toNat_setWidth]
  omega

theorem addrWord_lt (nnn : Addr) : (addrWord nnn).toNat < 0x1000 := by
  rw [toNat_addrWord]
  exact nnn.isLt

/-! ### Stack -/

/-- What a push can do (10_state.md R29). -/
theorem push_cases (s : State) (v : Word) :
    (s.stack.length < 16 ∧ s.push v = some { s with stack := v :: s.stack }) ∨
    (16 ≤ s.stack.length ∧ s.push v = none) := by
  unfold State.push Config.stackDepth
  by_cases h : s.stack.length < 16
  · exact .inl ⟨h, if_pos h⟩
  · exact .inr ⟨by omega, if_neg h⟩

/-- What a pop can do (R29). -/
theorem pop_cases (s : State) :
    (∃ v rest, s.stack = v :: rest ∧ s.pop = some (v, { s with stack := rest })) ∨
    (s.stack = [] ∧ s.pop = none) := by
  unfold State.pop
  split
  · next h => exact .inr ⟨h, rfl⟩
  · next v rest h => exact .inl ⟨v, rest, h, rfl⟩

/-! ### Register blocks -/

/-- A register after a block of registers is written: the byte of its place inside the block, the
old value outside it. -/
theorem getElem_writeRegsFrom (bs : List Byte) (k : Nat) (r : Vector Byte 16) (j : Nat)
    (hj : j < 16) :
    (writeRegsFrom k bs r)[j] =
      if k ≤ j ∧ j < k + bs.length then bs.getD (j - k) 0 else r[j] := by
  induction bs generalizing k r with
  | nil =>
    rw [if_neg (by simp only [List.length_nil]; omega)]
    rfl
  | cons b rest ih =>
    simp only [writeRegsFrom, ih, Vector.getElem_setIfInBounds, List.length_cons]
    by_cases h1 : k = j
    · subst h1
      rw [if_neg (by omega), if_pos rfl, if_pos (by omega), Nat.sub_self, List.getD_cons_zero]
    · by_cases h2 : k + 1 ≤ j ∧ j < k + 1 + rest.length
      · have h4 : j - k = (j - (k + 1)) + 1 := by omega
        rw [if_pos h2, if_pos (by omega), h4, List.getD_cons_succ]
      · rw [if_neg h2, if_neg h1, if_neg (by omega)]

@[simp] theorem length_regsUpTo (s : State) (x : Reg) : (s.regsUpTo x).length = x.toNat + 1 := by
  have := x.isLt
  simp only [State.regsUpTo, List.length_take, Vector.length_toList]
  omega

/-- The `k`-th byte STORE.REGS stores is register `k`. -/
theorem getD_regsUpTo (s : State) (x r : Reg) (h : r.toNat ≤ x.toNat) :
    (s.regsUpTo x).getD r.toNat 0 = s.getV r := by
  have hr : r.toNat < (s.regsUpTo x).length := by rw [length_regsUpTo]; omega
  rw [List.getD_eq_getElem _ _ hr]
  simp only [State.regsUpTo, List.getElem_take, Vector.getElem_toList, State.getV]

/-! ### Fetch -/

/-- The two ways a fetch ends (40_cycle_and_dispatch.md R114): the big-endian word below 0xFFF, or
nothing at 0xFFF and above. -/
theorem fetch_cases (s : State) :
    (s.pc.toNat < 0xFFF ∧
      s.fetch = some (wordOfBytes (memGet s.mem s.pc.toNat) (memGet s.mem (s.pc.toNat + 1)))) ∨
    (0xFFF ≤ s.pc.toNat ∧ s.fetch = none) := by
  unfold State.fetch State.memRead Config.memSize
  by_cases h1 : s.pc.toNat + 1 < 4096
  · refine .inl ⟨by omega, ?_⟩
    rw [if_pos (by omega), if_pos h1]
  · refine .inr ⟨by omega, ?_⟩
    by_cases h2 : s.pc.toNat < 4096
    · rw [if_pos h2, if_neg h1]
    · rw [if_neg h2]

/-! ### Timers -/

/-- One timer's countdown (60_exceptions.md R310): one less, and zero stays zero. -/
theorem toNat_countTimer (t : Byte) : (countTimer t).toNat = t.toNat - 1 := by
  have := t.isLt
  unfold countTimer
  split
  · simp only [BitVec.toNat_ofNat]; omega
  · omega

/-- At the end of a tick a timer counts down exactly on the strobe (40_cycle_and_dispatch.md R122):
the zero timer, which a countdown leaves alone, is no exception. -/
theorem strobeTimer_countTimer (strobe : Bool) (t : Byte) :
    strobeTimer strobe t (countTimer t) = if strobe then countTimer t else t := by
  unfold strobeTimer
  split
  · next h => cases strobe <;> simp [countTimer, h]
  · rfl

/-! ### Keys -/

/-- The held key FX0A stores is held, and no lower key is (46_keys_timers.md R273). -/
theorem lowestKey_some {keys : BitVec 16} {k : Key} (h : lowestKey keys = some k) :
    keys.getLsbD k.toNat = true ∧ ∀ j < k.toNat, keys.getLsbD j = false := by
  simp only [lowestKey, Option.map_eq_some_iff] at h
  obtain ⟨n, hn, rfl⟩ := h
  have hlt : n < 16 := List.mem_range.1 (List.mem_of_find?_eq_some hn)
  have hk : (BitVec.ofNat 4 n).toNat = n := by
    rw [BitVec.toNat_ofNat]; exact Nat.mod_eq_of_lt hlt
  rw [hk]
  have hn' := List.find?_range_eq_some.1 hn
  exact ⟨hn'.1, fun j hj => by simpa using hn'.2.2 j hj⟩

/-- No key is stored exactly when none is held. -/
theorem lowestKey_none (keys : BitVec 16) : lowestKey keys = none ↔ keys = 0 := by
  simp only [lowestKey, Option.map_eq_none_iff, List.find?_eq_none, List.mem_range]
  constructor
  · intro h
    apply BitVec.eq_of_getLsbD_eq
    intro i hi
    simpa using h i hi
  · rintro rfl i _
    simp

end Sys2Proof.Machine
end

