-- ==== Sys2Proof/Laws/Exec.lean ====
section
/-! SUPPORT. What an instruction can do, said once for all 35: it runs, or it takes the fatal error
its own check names. -/

namespace Sys2Proof.Machine

/-- The two ways an instruction ends: it completes, its own check passed, inputs, tick count and
fault record as they were, and `run` too unless it is LD.VX.K entering the wait; or its own check
failed and the fatal error is taken from the state before the fetch (60_exceptions.md R301 to R305,
46_keys_timers.md R273). -/
theorem exec_cases (i : Instr) (s : State) :
    (∃ t, exec i s = .next t ∧ ownFault i s = none ∧
      t.inputs = s.inputs ∧ t.ticks = s.ticks ∧ t.fault = s.fault ∧
      (t.run = s.run ∨ t.run = .waitingForKey ∧ s.now.keys = 0 ∧ i = .ldVxK t.waitX)) ∨
    (∃ k, exec i s = .next (s.raise k (some (encode i))) ∧ ownFault i s = some k) := by
  cases i
  case call nnn =>
    rcases push_cases s.advance s.advance.pc with ⟨h, e⟩ | ⟨h, e⟩
    · have : ¬ 16 ≤ s.stack.length := by simpa using h
      refine .inl ⟨_, by simp only [exec, execCall, e]; rfl, ?_, by rfl, by rfl, by rfl,
        .inl (by rfl)⟩
      simp only [ownFault, this, if_false]
    · have : 16 ≤ s.stack.length := h
      refine .inr ⟨_, by simp only [exec, execCall, e]; rfl, ?_⟩
      simp only [ownFault, ge_iff_le, this, if_true]
  case ret =>
    rcases pop_cases s.advance with ⟨v, rest, h, e⟩ | ⟨h, e⟩ <;> rw [State.advance_stack] at h
    · exact .inl ⟨_, by simp only [exec, execRet, e]; rfl, by simp [ownFault, h], by rfl, by rfl,
        by rfl, .inl (by rfl)⟩
    · exact .inr ⟨_, by simp only [exec, execRet, e]; rfl, by simp [ownFault, h]⟩
  case storeBcd x =>
    have hl : (bcdDigits (s.getV x)).length = 3 := rfl
    rcases writeBlock_cases s.advance s.i.toNat (bcdDigits (s.getV x)) with ⟨h, e⟩ | ⟨h, e⟩
    · rw [blockInRange_iff, hl] at h
      refine .inl ⟨_, by simp only [exec, execStoreBcd, e]; rfl, ?_, by rfl, by rfl, by rfl,
        .inl (by rfl)⟩
      simp only [ownFault]
      rw [if_neg (by omega)]
    · have h := (blockInRange_iff _ _).not.1 (by rw [h]; simp)
      rw [hl] at h
      refine .inr ⟨_, by simp only [exec, execStoreBcd, e]; rfl, ?_⟩
      simp only [ownFault]
      rw [if_pos (by omega)]
  case storeRegs x =>
    rcases writeBlock_cases s.advance s.i.toNat (s.regsUpTo x) with ⟨h, e⟩ | ⟨h, e⟩
    · rw [blockInRange_iff, length_regsUpTo] at h
      refine .inl ⟨_, by simp only [exec, execStoreRegs, e]; rfl, ?_, by rfl, by rfl, by rfl,
        .inl (by rfl)⟩
      simp only [ownFault]
      rw [if_neg (by omega)]
    · have h := (blockInRange_iff _ _).not.1 (by rw [h]; simp)
      rw [length_regsUpTo] at h
      refine .inr ⟨_, by simp only [exec, execStoreRegs, e]; rfl, ?_⟩
      simp only [ownFault]
      rw [if_pos (by omega)]
  case loadRegs x =>
    rcases readBlock_cases s s.i.toNat (x.toNat + 1) with ⟨h, e⟩ | ⟨h, e⟩
    · rw [blockInRange_iff] at h
      refine .inl ⟨_, by simp only [exec, execLoadRegs, e]; rfl, ?_, by rfl, by rfl, by rfl,
        .inl (by rfl)⟩
      simp only [ownFault]
      rw [if_neg (by omega)]
    · have h := (blockInRange_iff _ _).not.1 (by rw [h]; simp)
      refine .inr ⟨_, by simp only [exec, execLoadRegs, e]; rfl, ?_⟩
      simp only [ownFault]
      rw [if_pos (by omega)]
  case draw x y n =>
    rcases readBlock_cases s s.i.toNat n.toNat with ⟨h, e⟩ | ⟨h, e⟩
    · rw [blockInRange_iff] at h
      refine .inl ⟨_, by simp only [exec, execDraw, e]; rfl, ?_, by rfl, by rfl, by rfl,
        .inl (by rfl)⟩
      simp only [ownFault]
      rw [if_neg (by omega)]
    · have h := (blockInRange_iff _ _).not.1 (by rw [h]; simp)
      refine .inr ⟨_, by simp only [exec, execDraw, e]; rfl, ?_⟩
      simp only [ownFault]
      rw [if_pos (by omega)]
  case ldVxK x =>
    cases e : lowestKey s.now.keys with
    | some k =>
      exact .inl ⟨_, by simp only [exec, execLdVxK, e]; rfl, rfl, by rfl, by rfl, by rfl,
        .inl (by rfl)⟩
    | none =>
      exact .inl ⟨_, by simp only [exec, execLdVxK, e]; rfl, rfl, by rfl, by rfl,
        by rfl, .inr ⟨by rfl, (lowestKey_none _).1 e, by rfl⟩⟩
  all_goals exact .inl ⟨_, rfl, rfl, by simp, by simp, by simp, .inl (by simp)⟩

end Sys2Proof.Machine
end

