-- ==== Sys2Proof/Laws/Operands.lean ====
section
/-! SUPPORT. The operand forms and the flag computations as numbers, and the tables of Safety.lean:
one lemma for each. -/

namespace Sys2Proof.Machine

/-! ### Flags (43_alu.md R187 to R191) -/

@[simp] theorem toNat_flagByte (b : Bool) : (flagByte b).toNat = if b then 1 else 0 := by
  cases b <;> rfl

theorem toNat_carryFlag (vx vy : Byte) :
    (carryFlag vx vy).toNat = if vx.toNat + vy.toNat > 255 then 1 else 0 := by
  simp [carryFlag]

theorem toNat_noBorrowFlag (a b : Byte) :
    (noBorrowFlag a b).toNat = if a.toNat ≥ b.toNat then 1 else 0 := by
  simp [noBorrowFlag]

theorem toNat_shrFlag (v : Byte) : (shrFlag v).toNat = v.toNat % 2 := by
  revert v; decide

theorem toNat_shlFlag (v : Byte) : (shlFlag v).toNat = v.toNat / 128 := by
  revert v; decide

/-- A byte difference as a number: modulo 256 (R188, R190). -/
theorem toNat_byte_sub (a b : Byte) : (a - b).toNat = (a.toNat + 256 - b.toNat) % 256 := by
  have := a.isLt
  have := b.isLt
  rw [BitVec.toNat_sub]
  omega

/-! ### Operand forms (30_encoding.md R84) -/

@[simp] theorem toNat_jumpV0Target (s : State) (nnn : Addr) :
    (s.jumpV0Target nnn).toNat = ((s.getV 0#4).toNat + nnn.toNat) % 0x1000 := by
  simp [State.jumpV0Target]

@[simp] theorem toNat_indexSum (s : State) (x : Reg) :
    (s.indexSum x).toNat = (s.i.toNat + (s.getV x).toNat) % 0x1000 := by
  simp [State.indexSum]

/-- The font digit is the low nibble (44_index_memory.md R222). -/
theorem fontDigit_eq (v : Byte) : fontDigit v = v.toNat % 16 := by
  revert v; decide

@[simp] theorem length_bcdDigits (v : Byte) : (bcdDigits v).length = 3 := rfl

/-- The three digits make up the byte again, and each is a digit (R223). -/
theorem bcdDigits_spec (v : Byte) :
    ∃ h t u : Byte, bcdDigits v = [h, t, u] ∧ h.toNat = v.toNat / 100 ∧
      t.toNat = v.toNat / 10 % 10 ∧ u.toNat = v.toNat % 10 := by
  have := v.isLt
  refine ⟨_, _, _, rfl, ?_, ?_, ?_⟩ <;> simp only [BitVec.toNat_ofNat] <;> omega

/-- The key test (46_keys_timers.md R270). -/
theorem pressed_iff (s : State) (v : Byte) :
    s.pressed v = true ↔ v.toNat ≤ 0xF ∧ s.now.keys.getLsbD v.toNat = true := by
  simp [State.pressed]

/-! ### The registers V0 to Vx -/

theorem mem_regsThrough (x r : Reg) : r ∈ regsThrough x ↔ r.toNat ≤ x.toNat := by
  simp only [regsThrough, List.mem_map, List.mem_range]
  constructor
  · rintro ⟨k, hk, rfl⟩
    have := x.isLt
    rw [BitVec.toNat_ofNat]
    omega
  · intro h
    exact ⟨r.toNat, by omega, by simp⟩

end Sys2Proof.Machine
end

