-- ==== Sys2Proof/Laws/PerInstr.lean ====
section
/-! SUPPORT. The family TableRow: the word of every instruction lies in its row of
spec/opcode_table.json, that is, its bits under the row's mask are the row's match. -/

namespace Sys2Proof.Laws

/-- The mask of an instruction's row of the opcode table. -/
def tableMask : Instr → Word
  | .cls => 0xFFFF
  | .ret => 0xFFFF
  | .sys _ => 0xF000
  | .jmp _ => 0xF000
  | .call _ => 0xF000
  | .skipEqImm _ _ => 0xF000
  | .skipNeImm _ _ => 0xF000
  | .skipEqReg _ _ _ => 0xF000
  | .movImm _ _ => 0xF000
  | .addImm _ _ => 0xF000
  | .movReg _ _ => 0xF00F
  | .or _ _ => 0xF00F
  | .and _ _ => 0xF00F
  | .xor _ _ => 0xF00F
  | .addReg _ _ => 0xF00F
  | .sub _ _ => 0xF00F
  | .shr _ _ => 0xF00F
  | .subn _ _ => 0xF00F
  | .shl _ _ => 0xF00F
  | .skipNeReg _ _ _ => 0xF000
  | .movI _ => 0xF000
  | .jmpV0 _ => 0xF000
  | .rnd _ _ => 0xF000
  | .draw _ _ _ => 0xF000
  | .skipKey _ => 0xF0FF
  | .skipNkey _ => 0xF0FF
  | .ldVxDt _ => 0xF0FF
  | .ldVxK _ => 0xF0FF
  | .ldDtVx _ => 0xF0FF
  | .ldStVx _ => 0xF0FF
  | .addI _ => 0xF0FF
  | .ldIFont _ => 0xF0FF
  | .storeBcd _ => 0xF0FF
  | .storeRegs _ => 0xF0FF
  | .loadRegs _ => 0xF0FF

/-- The match of an instruction's row of the opcode table. -/
def tableMatch : Instr → Word
  | .cls => 0x00E0
  | .ret => 0x00EE
  | .sys _ => 0x0000
  | .jmp _ => 0x1000
  | .call _ => 0x2000
  | .skipEqImm _ _ => 0x3000
  | .skipNeImm _ _ => 0x4000
  | .skipEqReg _ _ _ => 0x5000
  | .movImm _ _ => 0x6000
  | .addImm _ _ => 0x7000
  | .movReg _ _ => 0x8000
  | .or _ _ => 0x8001
  | .and _ _ => 0x8002
  | .xor _ _ => 0x8003
  | .addReg _ _ => 0x8004
  | .sub _ _ => 0x8005
  | .shr _ _ => 0x8006
  | .subn _ _ => 0x8007
  | .shl _ _ => 0x800E
  | .skipNeReg _ _ _ => 0x9000
  | .movI _ => 0xA000
  | .jmpV0 _ => 0xB000
  | .rnd _ _ => 0xC000
  | .draw _ _ _ => 0xD000
  | .skipKey _ => 0xE09E
  | .skipNkey _ => 0xE0A1
  | .ldVxDt _ => 0xF007
  | .ldVxK _ => 0xF00A
  | .ldDtVx _ => 0xF015
  | .ldStVx _ => 0xF018
  | .addI _ => 0xF01E
  | .ldIFont _ => 0xF029
  | .storeBcd _ => 0xF033
  | .storeRegs _ => 0xF055
  | .loadRegs _ => 0xF065

/-! ### A word under a mask, for each way the formats put one together -/

theorem append_and_append {n m : Nat} (f g : BitVec n) (a b : BitVec m) :
    (f ++ a) &&& (g ++ b) = (f &&& g) ++ (a &&& b) := by
  apply BitVec.eq_of_getLsbD_eq
  intro i _
  simp only [BitVec.getLsbD_and, BitVec.getLsbD_append]
  split <;> simp

theorem nibble_and_ones (f : Nibble) : f &&& 0xF#4 = f := by
  revert f; decide

theorem byte_and_ones (b : Byte) : b &&& 0xFF#8 = b := by
  revert b; decide

/-- Format A: the family is fixed. -/
theorem addr_and (f : Nibble) (a : Addr) : (f ++ a : Word) &&& 0xF000 = f ++ 0x000#12 := by
  rw [show (0xF000 : Word) = 0xF#4 ++ 0x000#12 from rfl, append_and_append, nibble_and_ones,
    BitVec.and_zero]

/-- Format XNN: the family is fixed. -/
theorem xnn_and (f : Nibble) (x : Reg) (b : Byte) :
    (f ++ x ++ b : Word) &&& 0xF000 = f ++ 0x0#4 ++ 0x00#8 := by
  rw [show (0xF000 : Word) = 0xF#4 ++ 0x0#4 ++ 0x00#8 from rfl, append_and_append,
    append_and_append, nibble_and_ones, BitVec.and_zero, BitVec.and_zero]

/-- Format XSS: the family and the low byte are fixed. -/
theorem xss_and (f : Nibble) (x : Reg) (b : Byte) :
    (f ++ x ++ b : Word) &&& 0xF0FF = f ++ 0x0#4 ++ b := by
  rw [show (0xF0FF : Word) = 0xF#4 ++ 0x0#4 ++ 0xFF#8 from rfl, append_and_append,
    append_and_append, nibble_and_ones, BitVec.and_zero, byte_and_ones]

/-- Formats XY and XYN: the family is fixed. -/
theorem xyn_and (f : Nibble) (x y : Reg) (n : Nibble) :
    (f ++ x ++ y ++ n : Word) &&& 0xF000 = f ++ 0x0#4 ++ 0x0#4 ++ 0x0#4 := by
  rw [show (0xF000 : Word) = 0xF#4 ++ 0x0#4 ++ 0x0#4 ++ 0x0#4 from rfl, append_and_append,
    append_and_append, append_and_append, nibble_and_ones, BitVec.and_zero, BitVec.and_zero,
    BitVec.and_zero]

/-- Formats XYS and XS: the family and the low nibble are fixed. -/
theorem xys_and (f : Nibble) (x y : Reg) (n : Nibble) :
    (f ++ x ++ y ++ n : Word) &&& 0xF00F = f ++ 0x0#4 ++ 0x0#4 ++ n := by
  rw [show (0xF00F : Word) = 0xF#4 ++ 0x0#4 ++ 0x0#4 ++ 0xF#4 from rfl, append_and_append,
    append_and_append, append_and_append, nibble_and_ones, BitVec.and_zero, BitVec.and_zero,
    nibble_and_ones]

namespace TableRow

/-- The word of the instruction lies in its row of the table. -/
def Statement (i : Instr) : Prop := encode i &&& tableMask i = tableMatch i

theorem cls : Statement .cls := by unfold Statement; decide
theorem ret : Statement .ret := by unfold Statement; decide
theorem sys (nnn : Addr) : Statement (.sys nnn) :=
  addr_and _ _
theorem jmp (nnn : Addr) : Statement (.jmp nnn) :=
  addr_and _ _
theorem call (nnn : Addr) : Statement (.call nnn) :=
  addr_and _ _
theorem skipEqImm (x : Reg) (nn : Byte) : Statement (.skipEqImm x nn) :=
  xnn_and _ _ _
theorem skipNeImm (x : Reg) (nn : Byte) : Statement (.skipNeImm x nn) :=
  xnn_and _ _ _
theorem skipEqReg (x y : Reg) (z : Nibble) : Statement (.skipEqReg x y z) :=
  xyn_and _ _ _ _
theorem movImm (x : Reg) (nn : Byte) : Statement (.movImm x nn) :=
  xnn_and _ _ _
theorem addImm (x : Reg) (nn : Byte) : Statement (.addImm x nn) :=
  xnn_and _ _ _
theorem movReg (x y : Reg) : Statement (.movReg x y) :=
  xys_and _ _ _ _
theorem or (x y : Reg) : Statement (.or x y) :=
  xys_and _ _ _ _
theorem and (x y : Reg) : Statement (.and x y) :=
  xys_and _ _ _ _
theorem xor (x y : Reg) : Statement (.xor x y) :=
  xys_and _ _ _ _
theorem addReg (x y : Reg) : Statement (.addReg x y) :=
  xys_and _ _ _ _
theorem sub (x y : Reg) : Statement (.sub x y) :=
  xys_and _ _ _ _
theorem shr (x : Reg) (z : Nibble) : Statement (.shr x z) :=
  xys_and _ _ _ _
theorem subn (x y : Reg) : Statement (.subn x y) :=
  xys_and _ _ _ _
theorem shl (x : Reg) (z : Nibble) : Statement (.shl x z) :=
  xys_and _ _ _ _
theorem skipNeReg (x y : Reg) (z : Nibble) : Statement (.skipNeReg x y z) :=
  xyn_and _ _ _ _
theorem movI (nnn : Addr) : Statement (.movI nnn) :=
  addr_and _ _
theorem jmpV0 (nnn : Addr) : Statement (.jmpV0 nnn) :=
  addr_and _ _
theorem rnd (x : Reg) (nn : Byte) : Statement (.rnd x nn) :=
  xnn_and _ _ _
theorem draw (x y : Reg) (n : Nibble) : Statement (.draw x y n) :=
  xyn_and _ _ _ _
theorem skipKey (x : Reg) : Statement (.skipKey x) :=
  xss_and _ _ _
theorem skipNkey (x : Reg) : Statement (.skipNkey x) :=
  xss_and _ _ _
theorem ldVxDt (x : Reg) : Statement (.ldVxDt x) :=
  xss_and _ _ _
theorem ldVxK (x : Reg) : Statement (.ldVxK x) :=
  xss_and _ _ _
theorem ldDtVx (x : Reg) : Statement (.ldDtVx x) :=
  xss_and _ _ _
theorem ldStVx (x : Reg) : Statement (.ldStVx x) :=
  xss_and _ _ _
theorem addI (x : Reg) : Statement (.addI x) :=
  xss_and _ _ _
theorem ldIFont (x : Reg) : Statement (.ldIFont x) :=
  xss_and _ _ _
theorem storeBcd (x : Reg) : Statement (.storeBcd x) :=
  xss_and _ _ _
theorem storeRegs (x : Reg) : Statement (.storeRegs x) :=
  xss_and _ _ _
theorem loadRegs (x : Reg) : Statement (.loadRegs x) :=
  xss_and _ _ _

end TableRow

end Sys2Proof.Laws
end

