-- ==== Sys2Proof/Laws/Tick.lean ====
section
/-! SUPPORT. What a tick can do, said once: the ways a fetch, a decoding and a tick end, and the
fields of the state at a tick's end. -/

namespace Sys2Proof.Machine

/-- The three ways an instruction cycle goes (40_cycle_and_dispatch.md R113 to R118): the fetch
fails, the word selects nothing, or the selected instruction is run. -/
theorem executeOne_cases (s : State) :
    (s.fetch = none ∧ executeOne s = .next (s.raise .memoryOutOfRange none)) ∨
    (∃ op, s.fetch = some op ∧ (∀ i, decode op ≠ .ok i) ∧
      executeOne s = .next (s.raise .invalidOpcode (some op))) ∨
    (∃ op i, s.fetch = some op ∧ decode op = .ok i ∧ executeOne s = exec i s) := by
  unfold executeOne
  cases hf : s.fetch with
  | none => exact .inl ⟨rfl, rfl⟩
  | some op =>
    cases hd : decode op with
    | error e => exact .inr (.inl ⟨op, rfl, by simp [hd], by simp [hd]⟩)
    | ok i => exact .inr (.inr ⟨op, i, rfl, hd, by simp [hd]⟩)

/-- The four ways a tick goes (R110 to R112): nothing in Halted, a quit, an instruction, a step of
the wait. -/
theorem tick_cases (s : State) :
    (s.run = .halted ∧ step s = .next s) ∨
    (s.run ≠ .halted ∧ s.now.quit = true ∧ step s = .next { s with run := .halted }) ∨
    (s.run = .running ∧ s.now.quit = false ∧
      ∃ t, executeOne s = .next t ∧ step s = .next (t.endTick s.now)) ∨
    (s.run = .waitingForKey ∧ s.now.quit = false ∧
      step s = .next ((s.waitStep s.now.keyEvent).endTick s.now)) := by
  have hx : ∃ t, executeOne s = .next t := by
    rcases executeOne_cases s with ⟨_, h⟩ | ⟨op, _, _, h⟩ | ⟨op, i, _, _, h⟩
    · exact ⟨_, h⟩
    · exact ⟨_, h⟩
    · rcases exec_cases i s with ⟨t, e, _⟩ | ⟨k, e, _⟩ <;> exact ⟨_, h.trans e⟩
  obtain ⟨t, ht⟩ := hx
  cases hr : s.run <;> cases hq : s.now.quit <;> simp [step, tick, hr, hq, ht]

/-! ### The end of a tick (R122) -/

theorem State.endTick_of_halted {t : State} (h : t.run = .halted) (inp : TickInput) :
    t.endTick inp = t := by
  simp [State.endTick, h]

@[simp] theorem State.endTick_regs (t : State) (inp : TickInput) :
    (t.endTick inp).regs = t.regs := by
  unfold State.endTick; split <;> rfl

@[simp] theorem State.endTick_i (t : State) (inp : TickInput) : (t.endTick inp).i = t.i := by
  unfold State.endTick; split <;> rfl

@[simp] theorem State.endTick_pc (t : State) (inp : TickInput) : (t.endTick inp).pc = t.pc := by
  unfold State.endTick; split <;> rfl

@[simp] theorem State.endTick_stack (t : State) (inp : TickInput) :
    (t.endTick inp).stack = t.stack := by
  unfold State.endTick; split <;> rfl

@[simp] theorem State.endTick_mem (t : State) (inp : TickInput) : (t.endTick inp).mem = t.mem := by
  unfold State.endTick; split <;> rfl

@[simp] theorem State.endTick_fb (t : State) (inp : TickInput) : (t.endTick inp).fb = t.fb := by
  unfold State.endTick; split <;> rfl

@[simp] theorem State.endTick_run (t : State) (inp : TickInput) : (t.endTick inp).run = t.run := by
  unfold State.endTick; split <;> rfl

@[simp] theorem State.endTick_waitX (t : State) (inp : TickInput) :
    (t.endTick inp).waitX = t.waitX := by
  unfold State.endTick; split <;> rfl

@[simp] theorem State.endTick_fault (t : State) (inp : TickInput) :
    (t.endTick inp).fault = t.fault := by
  unfold State.endTick; split <;> rfl

end Sys2Proof.Machine
end

