-- ==== Sys2Proof/Tests/Slice0.lean ====
section
/-! SUPPORT. Tests: the well-formedness check, a word of every instruction written out from the
spec's encodings, steps with the results of the spec's own vectors (95_test_vectors.md, cited by
their ids), and for every statement with hypotheses a state and operands that meet them. -/

namespace Sys2Proof.Tests

open Sys2Proof.Machine

/-! ### Helpers -/

/-- A tick's inputs with nothing happening, as the vectors take them unless they say otherwise. -/
def quiet : TickInput := { keys := 0, keyEvent := none, quit := false, timerTick := false, rnd := 0 }

/-- Reset, with a word at an address and `PC` there; the coming tick has the given inputs. -/
def word (a op : Word) (inp : TickInput := quiet) : State :=
  { State.reset with
    pc := a
    mem := writeBytes [] a.toNat (bytesOfWord op)
    inputs := [inp] }

/-- Two registers set. -/
def setTwo (x : Reg) (v : Byte) (y : Reg) (w : Byte) (s : State) : State := (s.setV x v).setV y w

/-- `I` at an address, and bytes there. -/
def block (a : Word) (bs : List Byte) (s : State) : State :=
  { s with i := a, mem := writeBytes s.mem a.toNat bs }

/-- The next state, if there is one. -/
def nextOf (o : Host.Outcome State Fault Refusal) : Option State :=
  match o with
  | .next t => some t
  | .fault _ => none
  | .refused _ => none

/-- Something of the state after one step. -/
def after {α : Type} (s : State) (f : State → α) : Option α := (nextOf (step s)).map f

/-- A fault record. -/
def record (k : ErrorKind) (pc : Word) (op : Option Word) : Option FaultRecord :=
  some { kind := k, pc := pc, opcode := op }

/-! ### Well-formedness: each check has a term it refuses (30_encoding.md R86, R93) -/

theorem test_wf_refuses_sys_0E0 : (Instr.sys 0x0E0).wf = false := by decide
theorem test_wf_refuses_sys_0EE : (Instr.sys 0x0EE).wf = false := by decide
theorem test_wf_accepts_sys_0E1 : (Instr.sys 0x0E1).wf = true := by decide

/-! ### Decoding: a word of each instruction, bit by bit (30_encoding.md R83 to R90) -/

theorem test_decode_cls : decode 0b0000000011100000 = .ok .cls := by decide
theorem test_decode_ret : decode 0b0000000011101110 = .ok .ret := by decide
theorem test_decode_sys : decode 0b0000000100100011 = .ok (.sys 0x123) := by decide
theorem test_decode_jmp : decode 0b0001101010111100 = .ok (.jmp 0xABC) := by decide
theorem test_decode_call : decode 0b0010001000010000 = .ok (.call 0x210) := by decide
theorem test_decode_skipEqImm : decode 0b0011111100010010 = .ok (.skipEqImm 0xF 0x12) := by decide
theorem test_decode_skipNeImm : decode 0b0100000100010011 = .ok (.skipNeImm 0x1 0x13) := by decide
theorem test_decode_skipEqReg :
    decode 0b0101001001111111 = .ok (.skipEqReg 0x2 0x7 0xF) := by decide
theorem test_decode_movImm : decode 0b0110101011111111 = .ok (.movImm 0xA 0xFF) := by decide
theorem test_decode_addImm : decode 0b0111010000000011 = .ok (.addImm 0x4 0x03) := by decide
theorem test_decode_movReg : decode 0b1000010110010000 = .ok (.movReg 0x5 0x9) := by decide
theorem test_decode_or : decode 0b1000010110010001 = .ok (.or 0x5 0x9) := by decide
theorem test_decode_and : decode 0b1000010110010010 = .ok (.and 0x5 0x9) := by decide
theorem test_decode_xor : decode 0b1000010110010011 = .ok (.xor 0x5 0x9) := by decide
theorem test_decode_addReg : decode 0b1000101010110100 = .ok (.addReg 0xA 0xB) := by decide
theorem test_decode_sub : decode 0b1000010110010101 = .ok (.sub 0x5 0x9) := by decide
theorem test_decode_shr : decode 0b1000010110010110 = .ok (.shr 0x5 0x9) := by decide
theorem test_decode_subn : decode 0b1000010110010111 = .ok (.subn 0x5 0x9) := by decide
theorem test_decode_shl : decode 0b1000010110011110 = .ok (.shl 0x5 0x9) := by decide
theorem test_decode_skipNeReg :
    decode 0b1001101010110111 = .ok (.skipNeReg 0xA 0xB 0x7) := by decide
theorem test_decode_movI : decode 0b1010000100100011 = .ok (.movI 0x123) := by decide
theorem test_decode_jmpV0 : decode 0b1011101000000000 = .ok (.jmpV0 0xA00) := by decide
theorem test_decode_rnd : decode 0b1100011000001111 = .ok (.rnd 0x6 0x0F) := by decide
theorem test_decode_draw : decode 0b1101000100100101 = .ok (.draw 0x1 0x2 0x5) := by decide
theorem test_decode_skipKey : decode 0b1110001110011110 = .ok (.skipKey 0x3) := by decide
theorem test_decode_skipNkey : decode 0b1110001110100001 = .ok (.skipNkey 0x3) := by decide
theorem test_decode_ldVxDt : decode 0b1111010100000111 = .ok (.ldVxDt 0x5) := by decide
theorem test_decode_ldVxK : decode 0b1111001100001010 = .ok (.ldVxK 0x3) := by decide
theorem test_decode_ldDtVx : decode 0b1111010100010101 = .ok (.ldDtVx 0x5) := by decide
theorem test_decode_ldStVx : decode 0b1111010100011000 = .ok (.ldStVx 0x5) := by decide
theorem test_decode_addI : decode 0b1111001000011110 = .ok (.addI 0x2) := by decide
theorem test_decode_ldIFont : decode 0b1111110000101001 = .ok (.ldIFont 0xC) := by decide
theorem test_decode_storeBcd : decode 0b1111110000110011 = .ok (.storeBcd 0xC) := by decide
theorem test_decode_storeRegs : decode 0b1111001101010101 = .ok (.storeRegs 0x3) := by decide
theorem test_decode_loadRegs : decode 0b1111001101100101 = .ok (.loadRegs 0x3) := by decide

/-- L1.10: the descriptor of 0xD125. -/
theorem test_describe : describe 0xD125 = { family := 0xD, operands := 0x125, raw := 0xD125 } := by
  decide
/-- X2, X4 and X6: words that select nothing. -/
theorem test_decode_invalid :
    decode 0x8ABF = .error (.invalidOpcode 0x8ABF) ∧
      decode 0xE09F = .error (.invalidOpcode 0xE09F) ∧
      decode 0xF0FF = .error (.invalidOpcode 0xF0FF) := by decide
/-- Bytes: the high byte is first (20_memory.md R57); one byte is no instruction. -/
theorem test_decode_bytes :
    decodeBytes [0x60, 0x05, 0x70] = .ok (.movImm 0x0 0x05, [0x70]) ∧
      decodeBytes [0x60] = .error .truncated := by decide
/-- The table's numbering of a row's bits. -/
theorem test_decode_table_word : decodeTableWord 16 0xA123 = some (.movI 0x123) := by decide

/-! ### The tick (T and K vectors) -/

/-- T1: the fetch's increment wraps. -/
theorem test_fetch_wraps :
    after (word 0xFFE 0x6001) (fun t => (t.getV 0x0, t.pc)) = some (0x01, 0x000) := by decide
/-- T2: the fetch at 0xFFF fails. -/
theorem test_fetch_past_end :
    after { State.reset with pc := 0xFFF } (fun t => (t.fault, t.pc, t.run)) =
      some (record .memoryOutOfRange 0xFFF none, 0xFFF, .halted) := by decide
/-- T3: an odd `PC` is fetched from. -/
theorem test_fetch_odd :
    after (word 0x201 0x6001) (fun t => (t.getV 0x0, t.pc)) = some (0x01, 0x203) := by decide
/-- T4: a quit comes before the instruction. -/
theorem test_quit :
    after (word 0x200 0x6005 { quiet with quit := true })
      (fun t => (t.run, t.fault, t.getV 0x0, t.pc)) = some (.halted, none, 0x00, 0x200) := by decide
/-- T5: nothing happens in Halted. -/
theorem test_halted :
    after { word 0x200 0x6005 { quiet with timerTick := true, keyEvent := some 3 } with
      run := .halted, dt := 5 } (fun t => (t.dt, t.run, t.pc)) = some (5, .halted, 0x200) := by decide
/-- T6: an invalid word, and no countdown in its tick. -/
theorem test_invalid_word :
    after { word 0x200 0x8008 { quiet with timerTick := true } with dt := 5 }
      (fun t => (t.fault, t.dt)) = some (record .invalidOpcode 0x200 (some 0x8008), 5) := by decide
/-- T7: the countdown at the end of a tick. -/
theorem test_countdown :
    after { word 0x200 0x6001 { quiet with timerTick := true } with dt := 5 }
      (fun t => (t.getV 0x0, t.dt)) = some (0x01, 4) := by decide
/-- K8: a key event ends the wait; nothing is fetched. -/
theorem test_wait_event :
    after { word 0x202 0x6101 { quiet with keyEvent := some 7 } with
      run := .waitingForKey, waitX := 0x3 }
      (fun t => (t.getV 0x3, t.getV 0x1, t.run, t.pc)) = some (0x07, 0x00, .running, 0x202) := by
  decide
/-- K12, K11: a held key does not end the wait; the timers count on. -/
theorem test_wait_no_event :
    after { word 0x202 0x6101 { quiet with keys := 0x0100, timerTick := true } with
      run := .waitingForKey, waitX := 0x3, dt := 3 }
      (fun t => (t.run, t.dt, t.pc)) = some (.waitingForKey, 2, 0x202) := by decide
/-- K18: the sound timer reaches zero and the tone stops; a zero timer stays zero. -/
theorem test_tone_stops :
    after { word 0x200 0x0000 { quiet with timerTick := true } with st := 1 }
      (fun t => (t.st, t.tone, t.dt)) = some (0, false, 0) := by decide
/-- R123, R313: the Display request of a tick that draws. -/
theorem test_display_request :
    (block 0x300 [0x80] (word 0x200 0xD011)).displayRequest = some (.blit 0 0 [0x80]) := by decide
/-- A placed word is fetched by the very next tick. -/
theorem test_with_fetch_word :
    after (State.reset.withFetchWord 16 0x6AFF) (fun t => (t.getV 0xA, t.pc)) =
      some (0xFF, 0x202) := by decide

/-! ### Control transfer (F vectors) -/

/-- F9: last in, first out (the most recent entry is the list's first). -/
theorem test_ret :
    after { word 0x212 0x00EE with stack := [0x402, 0x202] } (fun t => (t.pc, t.stack)) =
      some (0x402, [0x202]) := by decide
/-- F8: an empty stack. -/
theorem test_ret_empty :
    after (word 0x300 0x00EE) (fun t => (t.fault, t.pc)) =
      some (record .stackUnderflow 0x300 (some 0x00EE), 0x300) := by decide
/-- F10. -/
theorem test_sys : after (word 0x300 0x0123) State.pc = some 0x302 := by decide
/-- L1.9: 0x0000 does not halt. -/
theorem test_sys_zero :
    after (word 0x200 0x0000) (fun t => (t.pc, t.run)) = some (0x202, .running) := by decide
/-- F1. -/
theorem test_jmp : after (word 0x200 0x1ABC) State.pc = some 0xABC := by decide
/-- F3: an odd target is legal. -/
theorem test_jmp_odd : after (word 0x200 0x1201) State.pc = some 0x201 := by decide
/-- F5: the pushed return address wraps. -/
theorem test_call :
    after (word 0xFFE 0x2300) (fun t => (t.stack, t.pc)) = some ([0x000], 0x300) := by decide
/-- F6: a full stack. -/
theorem test_call_full :
    after { word 0x400 0x2300 with stack := List.replicate 16 0x202 }
      (fun t => (t.fault, t.stack.length, t.pc)) =
      some (record .stackOverflow 0x400 (some 0x2300), 16, 0x400) := by decide
/-- F12: the sum wraps. -/
theorem test_jmpV0_wraps :
    after ((word 0x200 0xBFFF).setV 0x0 0xFF) State.pc = some 0x0FE := by decide
/-- F13: V0 is used, not VA. -/
theorem test_jmpV0_reads_V0 :
    after (setTwo 0x0 0x01 0xA 0x77 (word 0x200 0xBA00)) State.pc = some 0xA01 := by decide

/-! ### Skips (S vectors) -/

/-- S10: a skip wraps. -/
theorem test_skipEqImm_wraps :
    after ((word 0xFFC 0x3012).setV 0x0 0x12) State.pc = some 0x000 := by decide
/-- S2. -/
theorem test_skipEqImm_fails :
    after ((word 0x200 0x3013).setV 0x0 0x12) State.pc = some 0x202 := by decide
/-- S3. -/
theorem test_skipNeImm : after ((word 0x200 0x4013).setV 0x0 0x12) State.pc = some 0x204 := by decide
/-- S4. -/
theorem test_skipNeImm_fails :
    after ((word 0x200 0x4012).setV 0x0 0x12) State.pc = some 0x202 := by decide
/-- S6: the low nibble is ignored. -/
theorem test_skipEqReg :
    after (setTwo 0x0 0x07 0x1 0x07 (word 0x200 0x501F)) State.pc = some 0x204 := by decide
/-- S7. -/
theorem test_skipEqReg_fails :
    after (setTwo 0x0 0x01 0x1 0x02 (word 0x200 0x5010)) State.pc = some 0x202 := by decide
/-- X8. -/
theorem test_skipNeReg :
    after (setTwo 0xA 0x01 0xB 0x02 (word 0x200 0x9AB7)) State.pc = some 0x204 := by decide
/-- S9. -/
theorem test_skipNeReg_fails :
    after ((word 0x200 0x9330).setV 0x3 0x55) State.pc = some 0x202 := by decide

/-! ### The ALU (A vectors) -/

/-- A1. -/
theorem test_movImm : after (word 0x200 0x6AFF) (State.getV · 0xA) = some 0xFF := by decide
/-- A3: no flag. -/
theorem test_addImm :
    after (setTwo 0x0 0xFF 0xF 0x07 (word 0x200 0x7001)) (fun t => (t.getV 0x0, t.getV 0xF)) =
      some (0x00, 0x07) := by decide
/-- A4: VF as the destination. -/
theorem test_addImm_VF :
    after ((word 0x200 0x7FFF).setV 0xF 0x01) (State.getV · 0xF) = some 0x00 := by decide
/-- A5. -/
theorem test_movReg :
    after ((word 0x200 0x8010).setV 0x1 0x2A) (State.getV · 0x0) = some 0x2A := by decide
/-- A6 (its registers; VF below). -/
theorem test_or :
    after (setTwo 0x0 0xF0 0x1 0x0F (word 0x200 0x8011)) (State.getV · 0x0) = some 0xFF := by decide
/-- A6: VF stays. -/
theorem test_or_no_flag :
    after (setTwo 0x0 0xF0 0xF 0x05 (word 0x200 0x8011)) (State.getV · 0xF) = some 0x05 := by decide
/-- A7. -/
theorem test_and :
    after (setTwo 0x0 0xF0 0x1 0x3C (word 0x200 0x8012)) (State.getV · 0x0) = some 0x30 := by decide
/-- A8. -/
theorem test_xor :
    after (setTwo 0x0 0xFF 0x1 0x0F (word 0x200 0x8013)) (State.getV · 0x0) = some 0xF0 := by decide
/-- A12: the carry overwrites the sum in VF. -/
theorem test_addReg_VF_destination :
    after (setTwo 0xF 0xFF 0x1 0x01 (word 0x200 0x8F14)) (State.getV · 0xF) = some 0x01 := by decide
/-- A13: the old VF is the addend. -/
theorem test_addReg_VF_source :
    after (setTwo 0x0 0x01 0xF 0xFF (word 0x200 0x80F4)) (fun t => (t.getV 0x0, t.getV 0xF)) =
      some (0x00, 0x01) := by decide
/-- A16. -/
theorem test_sub :
    after (setTwo 0x0 0x03 0x1 0x05 (word 0x200 0x8015)) (fun t => (t.getV 0x0, t.getV 0xF)) =
      some (0xFE, 0x00) := by decide
/-- L1.3a: equal operands do not borrow. -/
theorem test_sub_equal :
    after (setTwo 0x0 0x42 0x1 0x42 (word 0x200 0x8015)) (fun t => (t.getV 0x0, t.getV 0xF)) =
      some (0x00, 0x01) := by decide
/-- A20: `Vy` is ignored. -/
theorem test_shr :
    after (setTwo 0x0 0x04 0x1 0xFF (word 0x200 0x8016)) (fun t => (t.getV 0x0, t.getV 0xF)) =
      some (0x02, 0x00) := by decide
/-- A21: the flag is written last. -/
theorem test_shr_VF :
    after ((word 0x200 0x8F06).setV 0xF 0x02) (State.getV · 0xF) = some 0x00 := by decide
/-- A22. -/
theorem test_subn :
    after (setTwo 0x0 0x03 0x1 0x05 (word 0x200 0x8017)) (fun t => (t.getV 0x0, t.getV 0xF)) =
      some (0x02, 0x01) := by decide
/-- A23. -/
theorem test_subn_borrow :
    after (setTwo 0x0 0x05 0x1 0x03 (word 0x200 0x8017)) (fun t => (t.getV 0x0, t.getV 0xF)) =
      some (0xFE, 0x00) := by decide
/-- A26: `Vy` is ignored. -/
theorem test_shl :
    after (setTwo 0x0 0x40 0x1 0x01 (word 0x200 0x801E)) (fun t => (t.getV 0x0, t.getV 0xF)) =
      some (0x80, 0x00) := by decide
/-- A27: the flag is written last. -/
theorem test_shl_VF :
    after ((word 0x200 0x8F0E).setV 0xF 0x80) (State.getV · 0xF) = some 0x01 := by decide

/-! ### Index register and memory (M vectors) -/

/-- M1. -/
theorem test_movI : after (word 0x200 0xA123) State.i = some 0x123 := by decide
/-- M3: 12-bit wrap, no flag. -/
theorem test_addI :
    after ({ word 0x200 0xF01E with i := 0xFFF }.setV 0x0 0x01) (fun t => (t.i, t.getV 0xF)) =
      some (0x000, 0x00) := by decide
/-- M5: the low nibble. -/
theorem test_ldIFont : after ((word 0x200 0xF029).setV 0x0 0x1A) State.i = some 0x082 := by decide
/-- M6. -/
theorem test_ldIFont_last :
    after ((word 0x200 0xF029).setV 0x0 0x0F) State.i = some 0x09B := by decide
/-- M12: the last place the digits fit. -/
theorem test_storeBcd :
    after ({ word 0x200 0xF033 with i := 0xFFD }.setV 0x0 0xFF)
      (fun t => (readBytes t.mem 0xFFD 3, t.i)) = some ([0x02, 0x05, 0x05], 0xFFD) := by decide
/-- M13: one further, nothing is stored. -/
theorem test_storeBcd_past_end :
    after ({ word 0x200 0xF033 with i := 0xFFE }.setV 0x0 0xFF)
      (fun t => (t.fault, readBytes t.mem 0xFFE 2)) =
      some (record .memoryOutOfRange 0x200 (some 0xF033), [0x00, 0x00]) := by decide
/-- M14 (two of its three registers). -/
theorem test_storeRegs :
    after (setTwo 0x0 0x01 0x1 0x02 { word 0x200 0xF155 with i := 0x300 })
      (fun t => (readBytes t.mem 0x300 3, t.i)) = some ([0x01, 0x02, 0x00], 0x300) := by decide
/-- M16. -/
theorem test_storeRegs_past_end :
    after { word 0x200 0xF155 with i := 0xFFF } (fun t => (t.fault, memGet t.mem 0xFFF)) =
      some (record .memoryOutOfRange 0x200 (some 0xF155), 0x00) := by decide
/-- M17; V3 stays. -/
theorem test_loadRegs :
    after ((block 0x300 [0x00, 0x04, 0x04] (word 0x200 0xF265)).setV 0x3 0x77)
      (fun t => (t.getV 0x0, t.getV 0x1, t.getV 0x2, t.getV 0x3, t.i)) =
      some (0x00, 0x04, 0x04, 0x77, 0x300) := by decide
/-- M19. -/
theorem test_loadRegs_past_end :
    after ({ word 0x200 0xF265 with i := 0xFFE }.setV 0x0 0x77) (fun t => (t.fault, t.getV 0x0)) =
      some (record .memoryOutOfRange 0x200 (some 0xF265), 0x77) := by decide

/-! ### Random byte and display (D vectors) -/

/-- The number of lit pixels. -/
def litPixels (fb : Framebuffer) : Nat := (fb.toList.map fun c => c.toList.count true).sum

/-- D1. -/
theorem test_rnd :
    after (word 0x200 0xC00F { quiet with rnd := 0xAB }) (State.getV · 0x0) = some 0x0B := by decide
/-- D4. -/
theorem test_cls :
    after ({ word 0x200 0x00E0 with fb := fbSet blankFramebuffer 3 4 true }.setV 0xF 0x09)
      (fun t => (litPixels t.fb, t.getV 0xF)) = some (0, 0x09) := by decide
/-- The example of 45_random_display.md R252: glyph "A" across both edges. -/
theorem test_draw_glyph :
    after { setTwo 0x1 60 0x2 30 (word 0x200 0xD125) with i := 0x082 }
      (fun t => (litPixels t.fb, t.getV 0xF, [(60, 30), (61, 30), (62, 30), (63, 30), (60, 31),
        (63, 31), (60, 0), (61, 0), (62, 0), (63, 0), (60, 1), (63, 1), (60, 2), (63, 2)].all
          fun p : Fin 64 × Fin 32 => fbGet t.fb p.1 p.2)) = some (14, 0, true) := by decide
/-- D13: `Vy = VF` is read before VF is written. -/
theorem test_draw_VF :
    after ((block 0x300 [0x80] (word 0x200 0xD0F1)).setV 0xF 3)
      (fun t => (litPixels t.fb, fbGet t.fb 0 3, t.getV 0xF)) = some (1, true, 0) := by decide

/-! ### Keys and timers (K vectors) -/

/-- K1. -/
theorem test_skipKey :
    after ((word 0x200 0xE09E { quiet with keys := 0x0010 }).setV 0x0 0x04) State.pc =
      some 0x204 := by decide
/-- K5: a `Vx` above 0xF names no key. -/
theorem test_skipKey_above :
    after ((word 0x200 0xE09E { quiet with keys := 0xFFFF }).setV 0x0 0x14) State.pc =
      some 0x202 := by decide
/-- K2. -/
theorem test_skipNkey_held :
    after ((word 0x200 0xE0A1 { quiet with keys := 0x0010 }).setV 0x0 0x04) State.pc =
      some 0x202 := by decide
/-- K4. -/
theorem test_skipNkey :
    after ((word 0x200 0xE0A1 { quiet with keys := 0xFFEF }).setV 0x0 0x04) State.pc =
      some 0x204 := by decide
/-- K7: the wait. -/
theorem test_ldVxK_waits :
    after (word 0x200 0xF30A) (fun t => (t.run, t.waitX, t.pc)) =
      some (.waitingForKey, 0x3, 0x202) := by decide
/-- K9: the lowest held key at once. -/
theorem test_ldVxK_held :
    after (word 0x200 0xF30A { quiet with keys := 0x0012 }) (fun t => (t.getV 0x3, t.run, t.pc)) =
      some (0x01, .running, 0x202) := by decide
/-- K14: read, then counted down. -/
theorem test_ldVxDt :
    after { word 0x200 0xF007 { quiet with timerTick := true } with dt := 5 }
      (fun t => (t.getV 0x0, t.dt)) = some (0x05, 4) := by decide
/-- K16: written, then counted down. -/
theorem test_ldDtVx :
    after ((word 0x200 0xF015 { quiet with timerTick := true }).setV 0x0 0x3C) State.dt =
      some 0x3B := by decide
/-- K17. -/
theorem test_ldStVx :
    after ((word 0x200 0xF118).setV 0x1 0x05) (fun t => (t.st, t.tone)) = some (0x05, true) := by
  decide

/-! ### Witnesses: for every statement with hypotheses, a state and operands that meet them, one for
each clause, at a boundary of its range -/

/-- Reset with nothing planned but a quiet tick. -/
def start : State := { State.reset with inputs := [quiet] }

theorem witness_SysOnlyAdvancesPc :
    (0x0E1#12 : Addr) ≠ 0x0E0#12 ∧ (0x0E1#12 : Addr) ≠ 0x0EE#12 := by decide
theorem witness_CallPushesAndJumps :
    ({ start with stack := List.replicate 15 0x202 } : State).stack.length < 16 := by decide
theorem witness_CallOnFullStackHalts :
    16 ≤ ({ start with stack := List.replicate 16 0x202 } : State).stack.length := by decide
theorem witness_RetPopsIntoPc :
    ({ start with stack := [0x402] } : State).stack = 0x402 :: [] := by decide
theorem witness_RetOnEmptyStackHalts : start.stack = [] := by decide
theorem witness_RetUndoesCall :
    ∃ s t u : State, s.stack.length < 16 ∧ exec (.call 0x300) s = .next t ∧ u.stack = t.stack :=
  ⟨{ start with stack := List.replicate 15 0x202 }, _, _, by decide, rfl, rfl⟩
/-- The clause on `x ≠ VF` of AddRegSumAndCarry, SubDifferenceAndNoBorrow, SubnDifferenceAndNoBorrow,
ShrHalvesAndShiftsOut and ShlDoublesAndShiftsOut. -/
theorem witness_results_and_flags : (0xE#4 : Reg) ≠ 0xF#4 := by decide
theorem witness_StoreBcdStoresDigits :
    Memory.wf start.mem ∧ ({ start with i := 0xFFD } : State).i.toNat + 2 ≤ 0xFFF := by decide
theorem witness_StoreRegsStoresRegisters :
    Memory.wf start.mem ∧
      ({ start with i := 0xFFF } : State).i.toNat + (0x0#4 : Reg).toNat ≤ 0xFFF := by decide
theorem witness_LoadRegsLoadsRegisters :
    ({ start with i := 0xFF0 } : State).i.toNat + (0xF#4 : Reg).toNat ≤ 0xFFF := by decide
theorem witness_LoadRegsLoadsRegisters_above : (0xE#4 : Reg).toNat < (0xF#4 : Reg).toNat := by decide
theorem witness_BlockPastEndHalts_bcd :
    ({ start with i := 0xFFE } : State).i.toNat + 2 > 0xFFF := by decide
theorem witness_BlockPastEndHalts_regs :
    ({ start with i := 0xFFF } : State).i.toNat + (0x1#4 : Reg).toNat > 0xFFF := by decide
theorem witness_BlockPastEndHalts_draw :
    (0x2#4 : Nibble).toNat > 0 ∧
      ({ start with i := 0xFFF } : State).i.toNat + (0x2#4 : Nibble).toNat - 1 > 0xFFF := by decide
theorem witness_StoreSeenByNextFetch :
    ∃ s t, Memory.wf s.mem ∧ 1 ≤ (0x1#4 : Reg).toNat ∧ s.i.toNat = s.pcPlus2 ∧
      s.i.toNat + (0x1#4 : Reg).toNat ≤ 0xFFF ∧ exec (.storeRegs 0x1) s = .next t :=
  ⟨{ start with i := 0x202 }, _, by decide, by decide, by decide, by decide, rfl⟩
theorem witness_DrawInvertsCoveredPixels_no_rows : (0x0#4 : Nibble) = 0 := by decide
theorem witness_DrawInvertsCoveredPixels_last_byte :
    ({ start with i := 0xFFF } : State).i.toNat + (0x1#4 : Nibble).toNat - 1 ≤ 0xFFF := by decide
theorem witness_DrawInvertsCoveredPixels_covered : SpriteCovers 63 31 [0x40] 0 31 :=
  ⟨0, 1, by decide, by decide, by decide, by decide, by decide⟩
theorem witness_DrawInvertsCoveredPixels_collision :
    ∃ px py, SpriteCovers 63 31 [0x40] px py ∧
      fbGet (fbSet blankFramebuffer 0 31 true) px py = true :=
  ⟨0, 31, witness_DrawInvertsCoveredPixels_covered, by decide⟩
theorem witness_DrawInvertsCoveredPixels_no_collision :
    ¬ ∃ px py, SpriteCovers 63 31 [0x40] px py ∧ fbGet start.fb px py = true := by
  rintro ⟨px, py, -, h⟩
  exact absurd (h.symm.trans (fbGet_blank px py)) (by decide)
theorem witness_DrawInvertsCoveredPixels_not_covered : ¬ SpriteCovers 63 31 [0x40] 63 31 := by
  rintro ⟨r, b, hr, hb, hbit, hx, -⟩
  have hr : r = 0 := by simpa using hr
  subst hr
  have hx : 63 = (63 + b) % 64 := hx
  have hb0 : b = 0 := by omega
  subst hb0
  exact absurd hbit (by decide)
theorem witness_DrawTwiceRestoresScreen :
    ∃ s t u, (0x0#4 : Reg) ≠ 0xF#4 ∧ (0x1#4 : Reg) ≠ 0xF#4 ∧
      exec (.draw 0x0 0x1 0x5) s = .next t ∧ exec (.draw 0x0 0x1 0x5) t = .next u :=
  ⟨{ start with i := 0x050 }, _, _, by decide, by decide, rfl, rfl⟩
theorem witness_FramebufferFollowsRequests_none :
    ∃ t, step start = .next t ∧ start.displayRequest = none := ⟨_, rfl, by decide⟩
theorem witness_FramebufferFollowsRequests_some :
    ∃ t, step (word 0x200 0x00E0) = .next t ∧ (word 0x200 0x00E0).displayRequest = some .clear :=
  ⟨_, rfl, by decide⟩
theorem witness_SkipKeyTestsKey_held :
    ((word 0x200 0xE09E { quiet with keys := 0x8000 }).setV 0x0 0x0F).now.keys.getLsbD 0xF =
      true := by decide
theorem witness_KeyHeldIsStoredAtOnce :
    (word 0x200 0xF30A { quiet with keys := 0x8000 }).now.keys.getLsbD (0xF#4 : Key).toNat = true ∧
      ∀ j < (0xF#4 : Key).toNat,
        (word 0x200 0xF30A { quiet with keys := 0x8000 }).now.keys.getLsbD j = false := by decide
theorem witness_NoKeyHeldWaits : (word 0x200 0xF30A).now.keys = 0 := by decide
theorem witness_WaitEnteredOnlyFromFx0A :
    ∃ t, step (word 0x200 0xF30A) = .next t ∧ (word 0x200 0xF30A).run ≠ .waitingForKey ∧
      t.run = .waitingForKey := ⟨_, rfl, by decide, rfl⟩
theorem witness_StepRunsDecodedInstruction :
    ∃ t, (word 0x200 0x6005).run = .running ∧ (word 0x200 0x6005).now.quit = false ∧
      (word 0x200 0x6005).fetch = some 0x6005 ∧ decode 0x6005 = .ok (.movImm 0x0 0x05) ∧
      exec (.movImm 0x0 0x05) (word 0x200 0x6005) = .next t :=
  ⟨_, by decide, by decide, by decide, by decide, rfl⟩
theorem witness_EndOfTickCountsDown_halted :
    ({ start with run := .halted } : State).run = .halted := by decide
theorem witness_EndOfTickCountsDown_not_halted : start.run ≠ .halted := by decide
theorem witness_FetchIsBigEndian : ({ start with pc := 0xFFE } : State).pc.toNat < 0xFFF := by decide
theorem witness_FetchPastEndHalts :
    ({ start with pc := 0xFFF } : State).run = .running ∧
      ({ start with pc := 0xFFF } : State).now.quit = false ∧
      0xFFF ≤ ({ start with pc := 0xFFF } : State).pc.toNat := by decide
theorem witness_InvalidWordHalts :
    (word 0x200 0x8008).run = .running ∧ (word 0x200 0x8008).now.quit = false ∧
      (word 0x200 0x8008).fetch = some 0x8008 ∧ ∀ i, decode 0x8008 ≠ .ok i := by
  refine ⟨by decide, by decide, by decide, fun i h => ?_⟩
  have e : decode 0x8008 = .error (.invalidOpcode 0x8008) := by decide
  rw [e] at h
  cases h
theorem witness_HaltedForever : ({ start with run := .halted } : State).run = .halted := by decide
theorem witness_QuitHaltsAtOnce :
    (word 0x200 0x6005 { quiet with quit := true }).run ≠ .halted ∧
      (word 0x200 0x6005 { quiet with quit := true }).now.quit = true := by decide
theorem witness_WaitTickStoresEventKey_none :
    ({ start with run := .waitingForKey } : State).run = .waitingForKey ∧
      ({ start with run := .waitingForKey } : State).now.quit = false ∧
      ({ start with run := .waitingForKey } : State).now.keyEvent = none := by decide
theorem witness_WaitTickStoresEventKey_some :
    let s := { word 0x202 0x6101 { quiet with keyEvent := some 0xF } with
      run := .waitingForKey, waitX := 0xF }
    s.run = .waitingForKey ∧ s.now.quit = false ∧ s.now.keyEvent = some 0xF := by decide
theorem witness_RunningTickIgnoresKeyEvent :
    ∃ t, (word 0x200 0x6005).run = .running ∧ (word 0x200 0x6005).inputs = quiet :: [] ∧
      step (word 0x200 0x6005) = .next t ∧ t.run ≠ .halted :=
  ⟨_, by decide, by decide, rfl, by decide⟩
theorem witness_InvalidWordsAreExactlyThese :
    (decode 0x8AB4 = .ok (.addReg 0xA 0xB)) ∧ (0x8008#16).toNat % 0x10 = 0x8 := by decide
theorem witness_DecodeOfEncode : (Instr.sys 0x0E1).wf = true ∧ (Instr.shl 0xF 0xF).wf = true := by
  decide
theorem witness_EncodeOfDecode : decode 0x00EF = .ok (.sys 0x0EF) := by decide
theorem witness_PlacedWordIsRun :
    ∃ t, Memory.wf start.mem ∧ ({ start with pc := 0xFFE } : State).pc.toNat < 0xFFF ∧
      decodeTableWord 16 0x6AFF = some (.movImm 0xA 0xFF) ∧
      exec (.movImm 0xA 0xFF) (State.withFetchWord { start with pc := 0xFFE } 16 0x6AFF) =
        .next t := ⟨_, by decide, by decide, by decide, rfl⟩
theorem witness_ResetLeavesTheseValues : (0x04F : Nat) < 0x050 ∧ 0x0A0 ≤ (0x0A0 : Nat) := by
  decide
theorem witness_RomLoadCopiesOrRefuses_fits : (List.replicate 3584 (0#8 : Byte)).length ≤ 3584 :=
  Nat.le_of_eq List.length_replicate
theorem witness_RomLoadCopiesOrRefuses_too_large :
    3584 < (List.replicate 3585 (0#8 : Byte)).length :=
  Nat.lt_of_lt_of_eq (by decide) List.length_replicate.symm
theorem witness_BootMeetsInvariant : ∃ t, boot [0x60, 0x05] [quiet] = .next t := by
  unfold boot loadRom
  exact ⟨_, if_pos (by decide)⟩
theorem witness_StepKeepsInvariant :
    ∃ t, Inv { start with pc := 0x300, dt := 5 } ∧
      step { start with pc := 0x300, dt := 5 } = .next t :=
  ⟨_, ⟨by decide, by decide, by decide, by decide, (fun _ h => nomatch h),
    (fun _ h => nomatch h)⟩, rfl⟩
theorem witness_InstructionsKeepTheirFrames :
    ∃ t, exec (.storeRegs 0x1) start = .next t ∧ t.run ≠ .halted ∧ Memory.wf start.mem :=
  ⟨_, rfl, by decide, by decide⟩
theorem witness_FatalErrorsArePrecise :
    ∃ t, step (word 0x300 0x00EE) = .next t ∧ (word 0x300 0x00EE).fault = none ∧
      t.fault ≠ none :=
  ⟨_, rfl, by decide, by decide⟩
theorem witness_FatalErrorsExactlyWhen_halts :
    ∃ t, (word 0x300 0x00EE).run = .running ∧ (word 0x300 0x00EE).now.quit = false ∧
      step (word 0x300 0x00EE) = .next t ∧ t.run = .halted :=
  ⟨_, by decide, by decide, rfl, by decide⟩
theorem witness_FatalErrorsExactlyWhen_goes_on :
    ∃ t, (word 0x200 0x6005).run = .running ∧ (word 0x200 0x6005).now.quit = false ∧
      step (word 0x200 0x6005) = .next t ∧ t.run ≠ .halted :=
  ⟨_, by decide, by decide, rfl, by decide⟩

end Sys2Proof.Tests
end

section
/-! PROOFS. The fetched word (20_memory.md R57). -/

namespace Sys2Proof

/-- The value of a big-endian word (20_memory.md R57): the byte at the lower address weighs 256. -/
theorem toNat_wordOfBytes (hi lo : Byte) :
    (wordOfBytes hi lo).toNat = hi.toNat * 256 + lo.toNat := by
  have hor : (wordOfBytes hi lo).toNat = hi.toNat <<< 8 ||| lo.toNat := BitVec.toNat_append hi lo
  rw [hor, ← Nat.shiftLeft_add_eq_or_of_lt lo.isLt, Nat.shiftLeft_eq]

end Sys2Proof

namespace Sys2Proof.Machine

/-- Settles O40: below 0xFFF the fetch answers the word of the bytes at `PC` and `PC + 1`. -/
theorem fetchIsBigEndian : Obligations.FetchIsBigEndian := by
  intro s hpc
  obtain ⟨-, hfetch⟩ | ⟨hend, -⟩ := fetch_cases s
  · exact ⟨_, hfetch, toNat_wordOfBytes _ _⟩
  · omega

end Sys2Proof.Machine
end

section
/-! PROOFS. Entering the key wait (40_cycle_and_dispatch.md R119). -/

namespace Sys2Proof.Machine

/-- An instruction cycle that ends in the wait, from a state that did not wait, ran LD.VX.K with no
key held, which latched its `x` (40_cycle_and_dispatch.md R119). -/
theorem ldVxK_of_executeOne_waits {s t : State} (h : executeOne s = .next t)
    (hs : s.run ≠ .waitingForKey) (ht : t.run = .waitingForKey) :
    ∃ op, s.fetch = some op ∧ decode op = .ok (.ldVxK t.waitX) ∧ s.now.keys = 0 := by
  obtain ⟨-, hx⟩ | ⟨op, -, -, hx⟩ | ⟨op, i, hfetch, hdecode, hx⟩ := executeOne_cases s
  · cases h.symm.trans hx
    cases ht
  · cases h.symm.trans hx
    cases ht
  · obtain ⟨u, hexec, -, -, -, -, hrun⟩ | ⟨k, hexec, -⟩ := exec_cases i s
    · cases h.symm.trans (hx.trans hexec)
      obtain hkeep | ⟨-, hkeys, rfl⟩ := hrun
      · exact absurd (hkeep.symm.trans ht) hs
      · exact ⟨op, hfetch, hdecode, hkeys⟩
    · cases h.symm.trans (hx.trans hexec)
      cases ht

/-- Settles O35: of the four ways a tick goes, only a Running tick's instruction can enter the
wait. -/
theorem waitEnteredOnlyFromFx0A : Obligations.WaitEnteredOnlyFromFx0A := by
  intro s t hstep hs ht
  obtain ⟨-, h⟩ | ⟨-, -, h⟩ | ⟨-, -, u, hx, h⟩ | ⟨hwait, -⟩ := tick_cases s
  · cases hstep.symm.trans h
    exact absurd ht hs
  · cases hstep.symm.trans h
    cases ht
  · cases hstep.symm.trans h
    rw [State.endTick_run] at ht
    obtain ⟨op, hfetch, hdecode, hkeys⟩ := ldVxK_of_executeOne_waits hx hs ht
    exact ⟨op, u.waitX, hfetch, hdecode, hkeys, State.endTick_waitX u s.now⟩
  · exact absurd hwait hs

end Sys2Proof.Machine
end

section
/-! PROOFS. SYS, JMP and JMP.V0 (41_flow.md R141, R142, R144): the words they are decoded from, and
that they write `PC` and nothing else. -/

namespace Sys2Proof

/-- A word 0x0nnn is SYS nnn unless it is one of the two literal words (30_encoding.md R86). -/
theorem decode_sys {nnn : Addr} (hcls : nnn ≠ 0x0E0#12) (hret : nnn ≠ 0x0EE#12) :
    decode (0x0#4 ++ nnn) = .ok (.sys nnn) := by
  have ne_of_operand {a : Addr} (h : nnn ≠ a) : (0x0#4 ++ nnn : Word) ≠ 0x0#4 ++ a :=
    fun e => h (by simpa using congrArg fieldNNN e)
  rw [decode_eq_selectFamily (ne_of_operand hcls) (ne_of_operand hret)]
  simp [selectFamily, describe]

/-- A word 0x1nnn is JMP nnn (30_encoding.md R87). -/
theorem decode_jmp (nnn : Addr) : decode (0x1#4 ++ nnn) = .ok (.jmp nnn) := by
  rw [decode_addr _ _ (by decide)]
  simp [selectFamily, describe]

/-- A word 0xBnnn is JMP.V0 nnn (30_encoding.md R87). -/
theorem decode_jmpV0 (nnn : Addr) : decode (0xB#4 ++ nnn) = .ok (.jmpV0 nnn) := by
  rw [decode_addr _ _ (by decide)]
  simp [selectFamily, describe]

end Sys2Proof

namespace Sys2Proof.Machine

/-! ### `PC` is in no frame -/

theorem Frame.refl (may : List Part) (ws : List Reg) (s : State) : Frame may ws s s where
  regs _ _ := rfl
  index _ := rfl
  stack _ := rfl
  delay _ := rfl
  sound _ := rfl
  memory _ _ := rfl
  framebuffer _ := rfl
  driver _ := ⟨rfl, rfl⟩
  fault := rfl
  inputs := ⟨rfl, rfl⟩

section
variable {may : List Part} {ws : List Reg} {s t : State}

theorem Frame.setPc (h : Frame may ws s t) (v : Word) : Frame may ws s (t.setPc v) where
  regs r hr := (State.getV_setPc t v r).trans (h.regs r hr)
  index := h.index
  stack := h.stack
  delay := h.delay
  sound := h.sound
  memory := h.memory
  framebuffer := h.framebuffer
  driver := h.driver
  fault := h.fault
  inputs := h.inputs

/-- The fetch's increment is a write of `PC` (40_cycle_and_dispatch.md R114). -/
theorem Frame.advance (h : Frame may ws s t) : Frame may ws s t.advance :=
  h.setPc (wrap12 (t.pc.toNat + 2))

end

theorem toNat_pc_advance (s : State) : s.advance.pc.toNat = s.pcPlus2 := by
  rw [State.advance_pc, toNat_wrap12, State.pcPlus2]

/-! ### The three meanings -/

theorem exec_sys (nnn : Addr) (s : State) : exec (.sys nnn) s = .next s.advance := rfl

theorem exec_jmp (nnn : Addr) (s : State) :
    exec (.jmp nnn) s = .next (s.advance.setPc (addrWord nnn)) := rfl

theorem exec_jmpV0 (nnn : Addr) (s : State) :
    exec (.jmpV0 nnn) s = .next (s.advance.setPc (s.jumpV0Target nnn)) := rfl

/-- Settles O1: SYS is the fetch's increment alone. -/
theorem sysOnlyAdvancesPc : Obligations.SysOnlyAdvancesPc := fun nnn s =>
  ⟨decode_sys, s.advance, exec_sys nnn s, toNat_pc_advance s, (Frame.refl [] [] s).advance⟩

/-- Settles O2: JMP is the fetch's increment and a write of the zero-extended target to `PC`. -/
theorem jmpSetsPc : Obligations.JmpSetsPc := fun nnn s =>
  ⟨decode_jmp nnn, _, exec_jmp nnn s, toNat_addrWord nnn, (Frame.refl [] [] s).advance.setPc _⟩

/-- Settles O3: JMP.V0 is the fetch's increment and a write of the computed target to `PC`. -/
theorem jmpV0SetsPc : Obligations.JmpV0SetsPc := fun nnn s =>
  ⟨decode_jmpV0 nnn, _, exec_jmpV0 nnn s, toNat_jumpV0Target s nnn,
    (Frame.refl [] [] s).advance.setPc _⟩

end Sys2Proof.Machine
end

section
/-! PROOFS. The conditional skips on registers (42_skip.md R160 to R164): the words they are decoded
from, where a skip leaves `PC`, and that it writes nothing else. -/

namespace Sys2Proof

/-- A word 0x3xnn is SKIP.EQ on an immediate (30_encoding.md R87). -/
theorem decode_skipEqImm (x : Reg) (nn : Byte) :
    decode (0x3#4 ++ x ++ nn) = .ok (.skipEqImm x nn) := by
  rw [decode_byte _ _ _ (by decide)]
  simp [selectFamily, describe]

/-- A word 0x4xnn is SKIP.NE on an immediate (30_encoding.md R87). -/
theorem decode_skipNeImm (x : Reg) (nn : Byte) :
    decode (0x4#4 ++ x ++ nn) = .ok (.skipNeImm x nn) := by
  rw [decode_byte _ _ _ (by decide)]
  simp [selectFamily, describe]

/-- A word 0x5xyz is SKIP.EQ on registers, whatever `z` is (30_encoding.md R87, R91). -/
theorem decode_skipEqReg (x y : Reg) (z : Nibble) :
    decode (0x5#4 ++ x ++ y ++ z) = .ok (.skipEqReg x y z) := by
  rw [decode_nibbles _ _ _ _ (by decide)]
  simp [selectFamily, describe]

/-- A word 0x9xyz is SKIP.NE on registers, whatever `z` is (30_encoding.md R87, R91). -/
theorem decode_skipNeReg (x y : Reg) (z : Nibble) :
    decode (0x9#4 ++ x ++ y ++ z) = .ok (.skipNeReg x y z) := by
  rw [decode_nibbles _ _ _ _ (by decide)]
  simp [selectFamily, describe]

end Sys2Proof

namespace Sys2Proof.Machine

/-! ### A skip -/

/-- A skip is a write of `PC`, taken or not (42_skip.md R160). -/
theorem Frame.skipIf {may : List Part} {ws : List Reg} {s t : State} (h : Frame may ws s t)
    (c : Bool) : Frame may ws s (t.skipIf c) :=
  h.setPc (if c then t.advance.pc else t.pc)

/-- `PC` after a skip that tests for `p` (42_skip.md R160). -/
theorem toNat_pc_skipIf {p : Prop} [Decidable p] {c : Bool} (hc : c = true ↔ p) (s : State) :
    (s.advance.skipIf c).pc.toNat = if p then s.pcPlus4 else s.pcPlus2 := by
  rw [State.skipIf_pc]
  by_cases hp : p
  · rw [if_pos (hc.2 hp), if_pos hp, toNat_wrap12, toNat_pc_advance, State.pcPlus4]
  · rw [if_neg (mt hc.1 hp), if_neg hp, toNat_pc_advance]

/-- What every skip instruction does: it completes, tests for `p` and writes only `PC`. -/
theorem exec_skip_spec {p : Prop} [Decidable p] {c : Bool} {i : Instr} {s : State}
    (hexec : exec i s = .next (s.advance.skipIf c)) (hc : c = true ↔ p) :
    ∃ t, exec i s = .next t ∧ t.pc.toNat = (if p then s.pcPlus4 else s.pcPlus2) ∧
      Frame [] [] s t :=
  ⟨_, hexec, toNat_pc_skipIf hc s, (Frame.refl [] [] s).advance.skipIf c⟩

/-! ### The four meanings -/

theorem exec_skipEqImm (x : Reg) (nn : Byte) (s : State) :
    exec (.skipEqImm x nn) s = .next (s.advance.skipIf (s.getV x == nn)) := rfl

theorem exec_skipNeImm (x : Reg) (nn : Byte) (s : State) :
    exec (.skipNeImm x nn) s = .next (s.advance.skipIf (s.getV x != nn)) := rfl

theorem exec_skipEqReg (x y : Reg) (z : Nibble) (s : State) :
    exec (.skipEqReg x y z) s = .next (s.advance.skipIf (s.getV x == s.getV y)) := rfl

theorem exec_skipNeReg (x y : Reg) (z : Nibble) (s : State) :
    exec (.skipNeReg x y z) s = .next (s.advance.skipIf (s.getV x != s.getV y)) := rfl

/-- Settles O9: both are skips, one on `Vx = nn`, the other on `Vx ≠ nn`. -/
theorem skipImmComparesAndSkips : Obligations.SkipImmComparesAndSkips := fun x nn s =>
  ⟨decode_skipEqImm x nn, decode_skipNeImm x nn,
    exec_skip_spec (exec_skipEqImm x nn s) beq_iff_eq,
    exec_skip_spec (exec_skipNeImm x nn s) bne_iff_ne⟩

/-- Settles O10: both are skips, one on `Vx = Vy`, the other on `Vx ≠ Vy`, and neither meaning reads
`z`. -/
theorem skipRegComparesAndSkips : Obligations.SkipRegComparesAndSkips := fun x y z s =>
  ⟨decode_skipEqReg x y z, decode_skipNeReg x y z,
    exec_skip_spec (exec_skipEqReg x y z s) beq_iff_eq,
    exec_skip_spec (exec_skipNeReg x y z s) bne_iff_ne⟩

end Sys2Proof.Machine
end

section
/-! PROOFS. The words of the register moves and the ALU (43_alu.md R181 to R191; 30_encoding.md R87,
R88). -/

namespace Sys2Proof

/-- A word 0x6xnn is MOV of an immediate (30_encoding.md R87). -/
theorem decode_movImm (x : Reg) (nn : Byte) : decode (0x6#4 ++ x ++ nn) = .ok (.movImm x nn) := by
  rw [decode_byte _ _ _ (by decide)]
  simp [selectFamily, describe]

/-- A word 0x7xnn is ADD of an immediate (30_encoding.md R87). -/
theorem decode_addImm (x : Reg) (nn : Byte) : decode (0x7#4 ++ x ++ nn) = .ok (.addImm x nn) := by
  rw [decode_byte _ _ _ (by decide)]
  simp [selectFamily, describe]

/-- Family 0x8 is left to the choice by the low nibble (30_encoding.md R87, R88). -/
theorem decode_alu (x y : Reg) (n : Nibble) :
    decode (0x8#4 ++ x ++ y ++ n) = selectAlu (0x8#4 ++ x ++ y ++ n) := by
  rw [decode_nibbles _ _ _ _ (by decide)]
  simp [selectFamily, describe]

section
variable (x y : Reg)

theorem decode_movReg : decode (0x8#4 ++ x ++ y ++ 0x0#4) = .ok (.movReg x y) := by
  simp [decode_alu, selectAlu]

theorem decode_or : decode (0x8#4 ++ x ++ y ++ 0x1#4) = .ok (.or x y) := by
  simp [decode_alu, selectAlu]

theorem decode_and : decode (0x8#4 ++ x ++ y ++ 0x2#4) = .ok (.and x y) := by
  simp [decode_alu, selectAlu]

theorem decode_xor : decode (0x8#4 ++ x ++ y ++ 0x3#4) = .ok (.xor x y) := by
  simp [decode_alu, selectAlu]

theorem decode_addReg : decode (0x8#4 ++ x ++ y ++ 0x4#4) = .ok (.addReg x y) := by
  simp [decode_alu, selectAlu]

theorem decode_sub : decode (0x8#4 ++ x ++ y ++ 0x5#4) = .ok (.sub x y) := by
  simp [decode_alu, selectAlu]

/-- Whatever the third nibble `z` is (30_encoding.md R94). -/
theorem decode_shr (z : Nibble) : decode (0x8#4 ++ x ++ z ++ 0x6#4) = .ok (.shr x z) := by
  simp [decode_alu, selectAlu]

/-- Whatever the third nibble `z` is (30_encoding.md R94). -/
theorem decode_shl (z : Nibble) : decode (0x8#4 ++ x ++ z ++ 0xE#4) = .ok (.shl x z) := by
  simp [decode_alu, selectAlu]

end

end Sys2Proof
end

section
/-! PROOFS. The register moves and the ALU (43_alu.md R180 to R191). An instruction that sets no
flag is one register write after the fetch's increment, one that sets it is a result and then the
flag; what such an instruction does is said once for each kind. -/

namespace Sys2Proof.Machine

/-! ### Register writes and frames -/

section
variable {may : List Part} {ws : List Reg} {s t : State} {x : Reg}

/-- A write of a register the frame lets change keeps the frame. -/
theorem Frame.setV (h : Frame may ws s t) (hx : x ∈ ws) (b : Byte) :
    Frame may ws s (t.setV x b) where
  regs r hr := by
    have hne : r ≠ x := fun e => hr (e ▸ hx)
    rw [State.getV_setV, if_neg hne, h.regs r hr]
  index := h.index
  stack := h.stack
  delay := h.delay
  sound := h.sound
  memory := h.memory
  framebuffer := h.framebuffer
  driver := h.driver
  fault := h.fault
  inputs := h.inputs

/-- A result and a flag are two register writes (43_alu.md R180 c). -/
theorem Frame.setResultFlag (h : Frame may ws s t) (hx : x ∈ ws) (hvf : regVF ∈ ws)
    (result flag : Byte) : Frame may ws s (t.setResultFlag x result flag) :=
  (h.setV hx result).setV hvf flag

end

/-! ### The two kinds of instruction -/

section
variable {i : Instr} {s : State} {x : Reg}

/-- What every instruction that only writes `Vx` does (43_alu.md R180 d). -/
theorem exec_setV_spec {v : Byte} (hexec : exec i s = .next (s.advance.setV x v)) :
    ∃ t, exec i s = .next t ∧ t.getV x = v ∧ t.pc.toNat = s.pcPlus2 ∧ Frame [] [x] s t := by
  refine ⟨_, hexec, ?_, ?_, (Frame.refl [] [x] s).advance.setV (by simp) v⟩
  · rw [State.getV_setV, if_pos rfl]
  · rw [State.setV_pc, toNat_pc_advance]

/-- The same, with the value that is written given bit by bit. -/
theorem exec_setV_bits_spec {v : Byte} {b : Nat → Bool}
    (hexec : exec i s = .next (s.advance.setV x v)) (hbits : ∀ k, v.getLsbD k = b k) :
    ∃ t, exec i s = .next t ∧ (∀ k, (t.getV x).getLsbD k = b k) ∧
      t.pc.toNat = s.pcPlus2 ∧ Frame [] [x] s t := by
  obtain ⟨t, ht, rfl, hrest⟩ := exec_setV_spec hexec
  exact ⟨t, ht, hbits, hrest⟩

/-- What every instruction that sets the flag does: `Vx` ends as the result unless it is VF, and VF
as the flag in any case (43_alu.md R180 c). -/
theorem exec_setResultFlag_spec {result flag : Byte} {m n : Nat}
    (hexec : exec i s = .next (s.advance.setResultFlag x result flag))
    (hresult : result.toNat = m) (hflag : flag.toNat = n) :
    ∃ t, exec i s = .next t ∧ (x ≠ regVF → (t.getV x).toNat = m) ∧ (t.getV regVF).toNat = n ∧
      t.pc.toNat = s.pcPlus2 ∧ Frame [] [x, regVF] s t := by
  refine ⟨_, hexec, fun hx => ?_, ?_, ?_,
    (Frame.refl [] [x, regVF] s).advance.setResultFlag (by simp) (by simp) result flag⟩
  · rw [State.getV_setResultFlag, if_neg hx, if_pos rfl, hresult]
  · rw [State.getV_setResultFlag, if_pos rfl, hflag]
  · rw [State.setResultFlag_pc, toNat_pc_advance]

end

/-! ### The meanings -/

section
variable (x y : Reg) (nn : Byte) (z : Nibble) (s : State)

theorem exec_movImm : exec (.movImm x nn) s = .next (s.advance.setV x nn) := rfl

theorem exec_addImm : exec (.addImm x nn) s = .next (s.advance.setV x (s.getV x + nn)) := rfl

theorem exec_movReg : exec (.movReg x y) s = .next (s.advance.setV x (s.getV y)) := rfl

theorem exec_or : exec (.or x y) s = .next (s.advance.setV x (s.getV x ||| s.getV y)) := rfl

theorem exec_and : exec (.and x y) s = .next (s.advance.setV x (s.getV x &&& s.getV y)) := rfl

theorem exec_xor : exec (.xor x y) s = .next (s.advance.setV x (s.getV x ^^^ s.getV y)) := rfl

theorem exec_addReg :
    exec (.addReg x y) s = .next (s.advance.setResultFlag x (s.getV x + s.getV y)
      (carryFlag (s.getV x) (s.getV y))) := rfl

theorem exec_sub :
    exec (.sub x y) s = .next (s.advance.setResultFlag x (s.getV x - s.getV y)
      (noBorrowFlag (s.getV x) (s.getV y))) := rfl

theorem exec_shr :
    exec (.shr x z) s =
      .next (s.advance.setResultFlag x (s.getV x >>> 1) (shrFlag (s.getV x))) := rfl

theorem exec_shl :
    exec (.shl x z) s =
      .next (s.advance.setResultFlag x (s.getV x <<< 1) (shlFlag (s.getV x))) := rfl

end

/-! ### Shifts by one as numbers -/

/-- A right shift by one halves (43_alu.md R189). -/
theorem toNat_byte_shiftRight_one (v : Byte) : (v >>> 1).toNat = v.toNat / 2 := by
  rw [BitVec.toNat_ushiftRight, Nat.shiftRight_eq_div_pow, Nat.pow_one]

/-- A left shift by one doubles modulo 256 (43_alu.md R191). -/
theorem toNat_byte_shiftLeft_one (v : Byte) : (v <<< 1).toNat = v.toNat * 2 % 256 := by
  rw [BitVec.toNat_shiftLeft, Nat.shiftLeft_eq, Nat.pow_one]

/-! ### The statements -/

/-- Settles O11: both are one write of `Vx`, the old `Vy` being read before it. -/
theorem movWritesVx : Obligations.MovWritesVx := fun x y nn s =>
  ⟨decode_movImm x nn, decode_movReg x y,
    exec_setV_spec (exec_movImm x nn s), exec_setV_spec (exec_movReg x y s)⟩

/-- Settles O12: one write of the sum to `Vx`, and a sum of bytes is modulo 256. -/
theorem addImmWrapsWithoutFlag : Obligations.AddImmWrapsWithoutFlag := by
  intro x nn s
  obtain ⟨t, ht, hsum, hrest⟩ := exec_setV_spec (exec_addImm x nn s)
  exact ⟨decode_addImm x nn, t, ht, hsum ▸ BitVec.toNat_add _ _, hrest⟩

/-- Settles O13: each is one write of `Vx`, by the library's law for the bits of its operator. -/
theorem logicIsBitwiseWithoutFlag : Obligations.LogicIsBitwiseWithoutFlag := fun x y s =>
  ⟨decode_or x y, decode_and x y, decode_xor x y,
    exec_setV_bits_spec (exec_or x y s) fun _ => BitVec.getLsbD_or,
    exec_setV_bits_spec (exec_and x y s) fun _ => BitVec.getLsbD_and,
    exec_setV_bits_spec (exec_xor x y s) fun _ => BitVec.getLsbD_xor⟩

/-- Settles O14: a byte sum and its carry, flag last. -/
theorem addRegSumAndCarry : Obligations.AddRegSumAndCarry := fun x y s =>
  ⟨decode_addReg x y,
    exec_setResultFlag_spec (exec_addReg x y s) (BitVec.toNat_add _ _) (toNat_carryFlag _ _)⟩

/-- Settles O15: a byte difference and the no-borrow flag, flag last. -/
theorem subDifferenceAndNoBorrow : Obligations.SubDifferenceAndNoBorrow := fun x y s =>
  ⟨decode_sub x y,
    exec_setResultFlag_spec (exec_sub x y s) (toNat_byte_sub _ _) (toNat_noBorrowFlag _ _)⟩

/-- Settles O17: a right shift by one and the bit it shifts out, flag last; the meaning does not
read `z`. -/
theorem shrHalvesAndShiftsOut : Obligations.ShrHalvesAndShiftsOut := fun x z s =>
  ⟨decode_shr x z,
    exec_setResultFlag_spec (exec_shr x z s) (toNat_byte_shiftRight_one _) (toNat_shrFlag _)⟩

/-- Settles O18: a left shift by one and the bit it shifts out, flag last; the meaning does not
read `z`. -/
theorem shlDoublesAndShiftsOut : Obligations.ShlDoublesAndShiftsOut := fun x z s =>
  ⟨decode_shl x z,
    exec_setResultFlag_spec (exec_shl x z s) (toNat_byte_shiftLeft_one _) (toNat_shlFlag _)⟩

end Sys2Proof.Machine
end

section
/-! PROOFS. MOV.I and ADD.I (44_index_memory.md R220, R221): the words they are decoded from, and
that each is one write of `I` after the fetch's increment. -/

namespace Sys2Proof

/-- A word 0xAnnn is MOV.I nnn (30_encoding.md R87). -/
theorem decode_movI (nnn : Addr) : decode (0xA#4 ++ nnn) = .ok (.movI nnn) := by
  rw [decode_addr _ _ (by decide)]
  simp [selectFamily, describe]

/-- Family 0xF is left to the choice by the low byte (30_encoding.md R87, R90). -/
theorem decode_misc (x : Reg) (b : Byte) :
    decode (0xF#4 ++ x ++ b) = selectMisc (0xF#4 ++ x ++ b) := by
  rw [decode_byte _ _ _ (by decide)]
  simp [selectFamily, describe]

theorem decode_addI (x : Reg) : decode (0xF#4 ++ x ++ 0x1E#8) = .ok (.addI x) := by
  simp [decode_misc, selectMisc]

end Sys2Proof

namespace Sys2Proof.Machine

/-! ### A write of `I` -/

/-- A write of `I` keeps a frame that lets `I` change. -/
theorem Frame.setI {may : List Part} {ws : List Reg} {s t : State} (h : Frame may ws s t)
    (hi : Part.index ∈ may) (v : Word) : Frame may ws s (t.setI v) where
  regs r hr := (State.getV_setI t v r).trans (h.regs r hr)
  index hni := absurd hi hni
  stack := h.stack
  delay := h.delay
  sound := h.sound
  memory := h.memory
  framebuffer := h.framebuffer
  driver := h.driver
  fault := h.fault
  inputs := h.inputs

/-- What every instruction that only writes `I` does, with the value as a number. -/
theorem exec_setI_spec {i : Instr} {s : State} {v : Word} {n : Nat}
    (hexec : exec i s = .next (s.advance.setI v)) (hv : v.toNat = n) :
    ∃ t, exec i s = .next t ∧ t.i.toNat = n ∧ t.pc.toNat = s.pcPlus2 ∧
      Frame [.index] [] s t := by
  refine ⟨_, hexec, ?_, ?_, (Frame.refl [.index] [] s).advance.setI (by simp) v⟩
  · rw [State.setI_i, hv]
  · rw [State.setI_pc, toNat_pc_advance]

/-! ### The two meanings -/

theorem exec_movI (nnn : Addr) (s : State) :
    exec (.movI nnn) s = .next (s.advance.setI (addrWord nnn)) := rfl

theorem exec_addI (x : Reg) (s : State) :
    exec (.addI x) s = .next (s.advance.setI (s.indexSum x)) := rfl

/-- Settles O19: one write of the zero-extended operand to `I`. -/
theorem movISetsIndex : Obligations.MovISetsIndex := fun nnn s =>
  ⟨decode_movI nnn, exec_setI_spec (exec_movI nnn s) (toNat_addrWord nnn)⟩

/-- Settles O20: one write of the wrapped sum to `I`; the frame names no register, so VF stays. -/
theorem addIWrapsTwelveBits : Obligations.AddIWrapsTwelveBits := fun x s =>
  ⟨decode_addI x, exec_setI_spec (exec_addI x s) (toNat_indexSum s x)⟩

end Sys2Proof.Machine
end

section
/-! PROOFS. CLS (45_random_display.md R251): the word it is decoded from, and that it is one write
of the framebuffer after the fetch's increment. -/

namespace Sys2Proof

/-- The first of the two literal words is CLS (30_encoding.md R86). -/
theorem decode_cls : decode 0x00E0 = .ok .cls := by decide

end Sys2Proof

namespace Sys2Proof.Machine

/-- A write of the framebuffer keeps a frame that lets the framebuffer change. -/
theorem Frame.setFramebuffer {may : List Part} {ws : List Reg} {s t : State}
    (h : Frame may ws s t) (hfb : Part.framebuffer ∈ may) (fb : Framebuffer) :
    Frame may ws s { t with fb := fb } where
  regs := h.regs
  index := h.index
  stack := h.stack
  delay := h.delay
  sound := h.sound
  memory := h.memory
  framebuffer hnfb := absurd hfb hnfb
  driver := h.driver
  fault := h.fault
  inputs := h.inputs

/-- The Display answers the clear request with the blank screen (45_random_display.md R256). -/
theorem exec_cls (s : State) :
    exec .cls s = .next { s.advance with fb := blankFramebuffer } := rfl

/-- Settles O28: one write of the blank screen; the frame names no register, so VF stays. -/
theorem clsClearsDisplay : Obligations.ClsClearsDisplay :=
  ⟨decode_cls, fun s => ⟨_, exec_cls s, fbGet_blank, toNat_pc_advance s,
    (Frame.refl [.framebuffer] [] s).advance.setFramebuffer (by simp) blankFramebuffer⟩⟩

end Sys2Proof.Machine
end

section
/-! PROOFS. TimerCountdown (60_exceptions.md R310): the value it leaves in a timer, and that it
writes the two timers only. -/

namespace Sys2Proof.Machine

/-- A counted timer by the rule's two cases (60_exceptions.md R310): at zero the truncated
difference of `toNat_countTimer` is zero as well. -/
theorem toNat_countTimer_eq_ite (t : Byte) :
    (countTimer t).toNat = if t.toNat > 0 then t.toNat - 1 else 0 := by
  rw [toNat_countTimer]
  split
  · rfl
  · omega

/-- The countdown keeps a frame that lets both timers change. -/
theorem Frame.countdown {may : List Part} {ws : List Reg} {s t : State} (h : Frame may ws s t)
    (hdelay : Part.delay ∈ may) (hsound : Part.sound ∈ may) : Frame may ws s t.countdown where
  regs r hr := (State.getV_countdown t r).trans (h.regs r hr)
  index := h.index
  stack := h.stack
  delay hnd := absurd hdelay hnd
  sound hns := absurd hsound hns
  memory := h.memory
  framebuffer := h.framebuffer
  driver := h.driver
  fault := h.fault
  inputs := h.inputs

/-- Settles O37: both timers by `toNat_countTimer_eq_ite`; the frame names no register. -/
theorem countdownClampsAtZero : Obligations.CountdownClampsAtZero := fun s =>
  ⟨toNat_countTimer_eq_ite s.dt, toNat_countTimer_eq_ite s.st, State.countdown_pc s,
    (Frame.refl [.delay, .sound] [] s).countdown (by simp) (by simp)⟩

end Sys2Proof.Machine
end

section
/-! PROOFS. The ROM load (70_reset_and_hazards.md R341): when it gives a state, and what memory
holds below, in and above the image. -/

namespace Sys2Proof.Machine

/-- Past the last glyph byte, 0x09F, memory resets to 0 (10_state.md R40, 20_memory.md R69). -/
theorem resetByte_of_font_end_le {a : Nat} (h : 0x0A0 ≤ a) : resetByte a = 0 := by
  have hlen : fontData.length = 0x50 := by decide
  have hpast : fontData.length ≤ a - fontBase := by
    rw [hlen, fontBase]
    omega
  rw [resetByte, List.getD_eq_default _ _ hpast, ite_self]

/-- The memory of reset lists no entry, so its addresses rise. -/
theorem rising_reset : Rising State.reset.mem := List.Pairwise.nil

/-- Byte `k` of stored bytes reads back at `base + k`. -/
theorem memGet_writeBytes_add {m : Memory} (h : Rising m) (bs : List Byte) (base : Nat) {k : Nat}
    (hk : k < bs.length) : memGet (writeBytes m base bs) (base + k) = bs.getD k 0 := by
  rw [memGet_writeBytes h, if_pos (by omega), Nat.add_sub_cancel_left]

/-- An image that fits gives the reset state with the image stored at 0x200
(70_reset_and_hazards.md R340, R341). -/
theorem boot_of_fits {rom : List Byte} (h : rom.length ≤ 3584) (inputs : List TickInput) :
    boot rom inputs =
      .next { State.reset with mem := writeBytes State.reset.mem 0x200 rom, inputs := inputs } :=
  if_pos h

/-- A longer image is refused (70_reset_and_hazards.md R341, 60_exceptions.md R307). -/
theorem boot_of_too_large {rom : List Byte} (h : 3584 < rom.length) (inputs : List TickInput) :
    boot rom inputs = .refused .romTooLarge :=
  if_neg (Nat.not_le.2 h)

/-- Settles O53: the load is one block write at 0x200 over the memory of reset, so the image reads
back and the bytes outside it are reset's, which are 0 from 0x200 on. -/
theorem romLoadCopiesOrRefuses : Obligations.RomLoadCopiesOrRefuses := by
  intro rom inputs
  refine ⟨fun hfits => ⟨_, boot_of_fits hfits inputs, ?image, ?above, ?below, rfl⟩,
    fun hlong => boot_of_too_large hlong inputs⟩
  case image => exact fun k hk => memGet_writeBytes_add rising_reset rom 0x200 hk
  case above =>
    intro a ha
    calc memGet (writeBytes State.reset.mem 0x200 rom) a
        _ = memGet State.reset.mem a := memGet_writeBytes_outside rising_reset rom 0x200 a (.inr ha)
        _ = resetByte a := rfl
        _ = 0 := resetByte_of_font_end_le (by omega)
  case below => exact fun a ha => memGet_writeBytes_outside rising_reset rom 0x200 a (.inl ha)

end Sys2Proof.Machine
end

section
/-! PROOFS. The words of the other instructions (30_encoding.md R85 to R90), and the decoder and the
encoder as inverses of each other. -/

namespace Sys2Proof

/-! ### The words not decoded above -/

/-- The second of the two literal words is RET (30_encoding.md R86). -/
theorem decode_ret : decode 0x00EE = .ok .ret := by decide

/-- A word 0x2nnn is CALL nnn (30_encoding.md R87). -/
theorem decode_call (nnn : Addr) : decode (0x2#4 ++ nnn) = .ok (.call nnn) := by
  rw [decode_addr _ _ (by decide)]
  simp [selectFamily, describe]

/-- A word 0xCxnn is RND (30_encoding.md R87). -/
theorem decode_rnd (x : Reg) (nn : Byte) : decode (0xC#4 ++ x ++ nn) = .ok (.rnd x nn) := by
  rw [decode_byte _ _ _ (by decide)]
  simp [selectFamily, describe]

/-- A word 0xDxyn is DRAW (30_encoding.md R87). -/
theorem decode_draw (x y : Reg) (n : Nibble) :
    decode (0xD#4 ++ x ++ y ++ n) = .ok (.draw x y n) := by
  rw [decode_nibbles _ _ _ _ (by decide)]
  simp [selectFamily, describe]

/-- Family 0xE is left to the choice by the low byte (30_encoding.md R87, R89). -/
theorem decode_key (x : Reg) (b : Byte) :
    decode (0xE#4 ++ x ++ b) = selectKey (0xE#4 ++ x ++ b) := by
  rw [decode_byte _ _ _ (by decide)]
  simp [selectFamily, describe]

section
variable (x y : Reg)

theorem decode_subn : decode (0x8#4 ++ x ++ y ++ 0x7#4) = .ok (.subn x y) := by
  simp [decode_alu, selectAlu]

theorem decode_skipKey : decode (0xE#4 ++ x ++ 0x9E#8) = .ok (.skipKey x) := by
  simp [decode_key, selectKey]

theorem decode_skipNkey : decode (0xE#4 ++ x ++ 0xA1#8) = .ok (.skipNkey x) := by
  simp [decode_key, selectKey]

theorem decode_ldVxDt : decode (0xF#4 ++ x ++ 0x07#8) = .ok (.ldVxDt x) := by
  simp [decode_misc, selectMisc]

theorem decode_ldVxK : decode (0xF#4 ++ x ++ 0x0A#8) = .ok (.ldVxK x) := by
  simp [decode_misc, selectMisc]

theorem decode_ldDtVx : decode (0xF#4 ++ x ++ 0x15#8) = .ok (.ldDtVx x) := by
  simp [decode_misc, selectMisc]

theorem decode_ldStVx : decode (0xF#4 ++ x ++ 0x18#8) = .ok (.ldStVx x) := by
  simp [decode_misc, selectMisc]

theorem decode_ldIFont : decode (0xF#4 ++ x ++ 0x29#8) = .ok (.ldIFont x) := by
  simp [decode_misc, selectMisc]

theorem decode_storeBcd : decode (0xF#4 ++ x ++ 0x33#8) = .ok (.storeBcd x) := by
  simp [decode_misc, selectMisc]

theorem decode_storeRegs : decode (0xF#4 ++ x ++ 0x55#8) = .ok (.storeRegs x) := by
  simp [decode_misc, selectMisc]

theorem decode_loadRegs : decode (0xF#4 ++ x ++ 0x65#8) = .ok (.loadRegs x) := by
  simp [decode_misc, selectMisc]

end

/-! ### Decoding an encoded instruction -/

/-- SYS is well-formed exactly off the two literal words (30_encoding.md R86, R93). -/
theorem wf_sys_iff (nnn : Addr) :
    (Instr.sys nnn).wf = true ↔ nnn ≠ 0x0E0#12 ∧ nnn ≠ 0x0EE#12 := by
  simp [Instr.wf]

/-- Settles O49: the word of each constructor is one whose decoding is known; only SYS needs the
well-formedness. -/
theorem decodeOfEncode : Obligations.DecodeOfEncode := by
  intro i hwf
  cases i with
  | cls => exact decode_cls
  | ret => exact decode_ret
  | sys nnn =>
    obtain ⟨hcls, hret⟩ := (wf_sys_iff nnn).1 hwf
    exact decode_sys hcls hret
  | jmp nnn => exact decode_jmp nnn
  | call nnn => exact decode_call nnn
  | skipEqImm x nn => exact decode_skipEqImm x nn
  | skipNeImm x nn => exact decode_skipNeImm x nn
  | skipEqReg x y z => exact decode_skipEqReg x y z
  | movImm x nn => exact decode_movImm x nn
  | addImm x nn => exact decode_addImm x nn
  | movReg x y => exact decode_movReg x y
  | or x y => exact decode_or x y
  | and x y => exact decode_and x y
  | xor x y => exact decode_xor x y
  | addReg x y => exact decode_addReg x y
  | sub x y => exact decode_sub x y
  | shr x z => exact decode_shr x z
  | subn x y => exact decode_subn x y
  | shl x z => exact decode_shl x z
  | skipNeReg x y z => exact decode_skipNeReg x y z
  | movI nnn => exact decode_movI nnn
  | jmpV0 nnn => exact decode_jmpV0 nnn
  | rnd x nn => exact decode_rnd x nn
  | draw x y n => exact decode_draw x y n
  | skipKey x => exact decode_skipKey x
  | skipNkey x => exact decode_skipNkey x
  | ldVxDt x => exact decode_ldVxDt x
  | ldVxK x => exact decode_ldVxK x
  | ldDtVx x => exact decode_ldDtVx x
  | ldStVx x => exact decode_ldStVx x
  | addI x => exact decode_addI x
  | ldIFont x => exact decode_ldIFont x
  | storeBcd x => exact decode_storeBcd x
  | storeRegs x => exact decode_storeRegs x
  | loadRegs x => exact decode_loadRegs x

/-! ### Encoding a decoded instruction

Each choice of the decoder fixes the fields it matches on; the word is those fields and the operands
put together again. -/

section
variable {op : Word} {f : Nat}

/-- Format A with its family known. -/
theorem addr_eq_word (hf : (fieldFamily op).toNat = f) :
    (BitVec.ofNat 4 f ++ fieldNNN op : Word) = op := by
  rw [← eq_ofNat_of_toNat hf, word_eq_addr]

/-- Format XNN with its family known. -/
theorem byte_eq_word (hf : (fieldFamily op).toNat = f) :
    (BitVec.ofNat 4 f ++ fieldX op ++ fieldNN op : Word) = op := by
  rw [← eq_ofNat_of_toNat hf, word_eq_byte]

/-- Format XSS with its family and its low byte known. -/
theorem byte_eq_word_of_low {b : Nat} (hf : (fieldFamily op).toNat = f)
    (hb : (fieldNN op).toNat = b) :
    (BitVec.ofNat 4 f ++ fieldX op ++ BitVec.ofNat 8 b : Word) = op := by
  rw [← eq_ofNat_of_toNat hb, byte_eq_word hf]

/-- Formats XY and XYN with their family known. -/
theorem nibbles_eq_word (hf : (fieldFamily op).toNat = f) :
    (BitVec.ofNat 4 f ++ fieldX op ++ fieldY op ++ fieldN op : Word) = op := by
  rw [← eq_ofNat_of_toNat hf, word_eq_nibbles]

/-- Format XYS with its family and its low nibble known. -/
theorem nibbles_eq_word_of_low {n : Nat} (hf : (fieldFamily op).toNat = f)
    (hn : (fieldN op).toNat = n) :
    (BitVec.ofNat 4 f ++ fieldX op ++ fieldY op ++ BitVec.ofNat 4 n : Word) = op := by
  rw [← eq_ofNat_of_toNat hn, nibbles_eq_word hf]

end

section
variable {op : Word} {i : Instr}

theorem encode_of_selectAlu (hf : (fieldFamily op).toNat = 0x8) (h : selectAlu op = .ok i) :
    i.wf = true ∧ encode i = op := by
  unfold selectAlu at h
  split at h <;> cases h
  all_goals next hn => exact ⟨rfl, nibbles_eq_word_of_low hf hn⟩

theorem encode_of_selectKey (hf : (fieldFamily op).toNat = 0xE) (h : selectKey op = .ok i) :
    i.wf = true ∧ encode i = op := by
  unfold selectKey at h
  split at h <;> cases h
  all_goals next hb => exact ⟨rfl, byte_eq_word_of_low hf hb⟩

theorem encode_of_selectMisc (hf : (fieldFamily op).toNat = 0xF) (h : selectMisc op = .ok i) :
    i.wf = true ∧ encode i = op := by
  unfold selectMisc at h
  split at h <;> cases h
  all_goals next hb => exact ⟨rfl, byte_eq_word_of_low hf hb⟩

/-- The SYS that a word other than the two literal ones selects is well-formed. -/
theorem wf_sys_of_ne_literal (hf : (fieldFamily op).toNat = 0x0) (hcls : op ≠ 0x00E0)
    (hret : op ≠ 0x00EE) : (Instr.sys (fieldNNN op)).wf = true := by
  rw [wf_sys_iff]
  refine ⟨fun e => hcls ?_, fun e => hret ?_⟩
  · rw [← addr_eq_word hf, e]; rfl
  · rw [← addr_eq_word hf, e]; rfl

/-- The dispatch of the families (30_encoding.md R87), read backwards. -/
theorem encode_of_selectFamily (hcls : op ≠ 0x00E0) (hret : op ≠ 0x00EE)
    (h : selectFamily (describe op) = .ok i) : i.wf = true ∧ encode i = op := by
  simp only [selectFamily, describe] at h
  split at h
  case h_1 hf => cases h; exact ⟨wf_sys_of_ne_literal hf hcls hret, addr_eq_word hf⟩
  case h_9 hf => exact encode_of_selectAlu hf h
  case h_15 hf => exact encode_of_selectKey hf h
  case h_16 =>
    have := (fieldFamily op).isLt
    simp only [imp_false] at *
    exact encode_of_selectMisc (by omega) h
  case h_2 hf | h_3 hf | h_11 hf | h_12 hf => cases h; exact ⟨rfl, addr_eq_word hf⟩
  case h_6 hf | h_10 hf | h_14 hf => cases h; exact ⟨rfl, nibbles_eq_word hf⟩
  all_goals next hf => cases h; exact ⟨rfl, byte_eq_word hf⟩

/-- Settles O50: a literal word is CLS or RET; every other word goes to its family. -/
theorem encodeOfDecode : Obligations.EncodeOfDecode := by
  intro op i h
  by_cases hcls : op = 0x00E0
  · subst hcls
    cases h.symm.trans decode_cls
    exact ⟨rfl, rfl⟩
  · by_cases hret : op = 0x00EE
    · subst hret
      cases h.symm.trans decode_ret
      exact ⟨rfl, rfl⟩
    · exact encode_of_selectFamily hcls hret (decode_eq_selectFamily hcls hret ▸ h)

end

/-! ### The words that select nothing (30_encoding.md R92) -/

/-- The family is the top digit of the word. -/
theorem toNat_fieldFamily (op : Word) : (fieldFamily op).toNat = op.toNat / 0x1000 := by
  have := op.isLt
  simp only [fieldFamily, BitVec.extractLsb'_toNat, Nat.shiftRight_eq_div_pow]
  omega

/-- `n` is the last digit of the word. -/
theorem toNat_fieldN (op : Word) : (fieldN op).toNat = op.toNat % 0x10 := by
  simp [fieldN, BitVec.extractLsb'_toNat]

/-- `nn` is the last two digits of the word. -/
theorem toNat_fieldNN (op : Word) : (fieldNN op).toNat = op.toNat % 0x100 := by
  simp [fieldNN, BitVec.extractLsb'_toNat]

/-- A result that is no instruction. -/
def SelectsNothing (r : Except DecodeError Instr) : Prop := ∀ i, r ≠ .ok i

@[simp] theorem selectsNothing_ok (i : Instr) : SelectsNothing (.ok i) ↔ False := by
  simp [SelectsNothing]

@[simp] theorem selectsNothing_error (e : DecodeError) : SelectsNothing (.error e) ↔ True := by
  simp [SelectsNothing]

/-- Family 8 leaves seven low nibbles open (R88). -/
theorem selectsNothing_selectAlu (op : Word) :
    SelectsNothing (selectAlu op) ↔
      (fieldN op).toNat ∈ [0x8, 0x9, 0xA, 0xB, 0xC, 0xD, 0xF] := by
  have := (fieldN op).isLt
  unfold selectAlu
  split
  case h_10 =>
    simp only [imp_false] at *
    simp only [selectsNothing_error, List.mem_cons, List.not_mem_nil, or_false, true_iff]
    omega
  all_goals next hn => simp [hn]

/-- Family E leaves every low byte but two open (R89). -/
theorem selectsNothing_selectKey (op : Word) :
    SelectsNothing (selectKey op) ↔ (fieldNN op).toNat ∉ [0x9E, 0xA1] := by
  unfold selectKey
  split
  case h_3 => simp_all [imp_false]
  all_goals next hb => simp [hb]

/-- Family F leaves every low byte but nine open (R90). -/
theorem selectsNothing_selectMisc (op : Word) :
    SelectsNothing (selectMisc op) ↔
      (fieldNN op).toNat ∉ [0x07, 0x0A, 0x15, 0x18, 0x1E, 0x29, 0x33, 0x55, 0x65] := by
  unfold selectMisc
  split
  case h_10 => simp_all [imp_false]
  all_goals next hb => simp [hb]

/-- Only families 8, E and F leave words open (R87, R92). -/
theorem selectsNothing_selectFamily (op : Word) :
    SelectsNothing (selectFamily (describe op)) ↔
      ((fieldFamily op).toNat = 0x8 ∧ SelectsNothing (selectAlu op)) ∨
      ((fieldFamily op).toNat = 0xE ∧ SelectsNothing (selectKey op)) ∨
      ((fieldFamily op).toNat = 0xF ∧ SelectsNothing (selectMisc op)) := by
  have := (fieldFamily op).isLt
  simp only [selectFamily, describe]
  split
  case h_16 =>
    simp only [imp_false] at *
    have hf : (fieldFamily op).toNat = 0xF := by omega
    simp [hf]
  all_goals next hf => simp [hf]

/-- A literal word selects its instruction, and its family, 0, leaves no word open. -/
theorem selectsNothing_decode (op : Word) :
    SelectsNothing (decode op) ↔ SelectsNothing (selectFamily (describe op)) := by
  by_cases hcls : op = 0x00E0
  · subst hcls
    rw [decode_cls, selectsNothing_selectFamily]
    simp [toNat_fieldFamily]
  · by_cases hret : op = 0x00EE
    · subst hret
      rw [decode_ret, selectsNothing_selectFamily]
      simp [toNat_fieldFamily]
    · rw [decode_eq_selectFamily hcls hret]

/-- Settles O48: the families that leave words open, and the fields as digits of the word. -/
theorem invalidWordsAreExactlyThese : Obligations.InvalidWordsAreExactlyThese := by
  intro op
  rw [← toNat_fieldFamily, ← toNat_fieldN, ← toNat_fieldNN, ← selectsNothing_selectAlu,
    ← selectsNothing_selectKey, ← selectsNothing_selectMisc, ← selectsNothing_selectFamily,
    ← selectsNothing_decode]
  rfl

/-- Settles O47: each word is evaluated. -/
theorem specExampleWordsDecode : Obligations.SpecExampleWordsDecode := by
  unfold Obligations.SpecExampleWordsDecode
  decide

end Sys2Proof
end

section
/-! PROOFS. What an instruction does by its own check (60_exceptions.md R305): the check of each
instruction that has one, the fatal error when it fails, and CALL and RET (41_flow.md R140,
R143). -/

namespace Sys2Proof.Machine

/-! ### The checks -/

section
variable (x y : Reg) (n : Nibble) (nnn : Addr) (s : State)

theorem ownFault_call_eq_none : ownFault (.call nnn) s = none ↔ s.stack.length < 16 := by
  simp [ownFault]

theorem ownFault_ret_eq_none : ownFault .ret s = none ↔ s.stack ≠ [] := by
  simp [ownFault]

theorem ownFault_storeBcd_eq_none :
    ownFault (.storeBcd x) s = none ↔ s.i.toNat + 2 ≤ 0xFFF := by
  simp only [ownFault, ite_eq_right_iff, reduceCtorEq, imp_false]
  omega

theorem ownFault_storeRegs_eq_none :
    ownFault (.storeRegs x) s = none ↔ s.i.toNat + x.toNat ≤ 0xFFF := by
  simp only [ownFault, ite_eq_right_iff, reduceCtorEq, imp_false]
  omega

theorem ownFault_loadRegs_eq_none :
    ownFault (.loadRegs x) s = none ↔ s.i.toNat + x.toNat ≤ 0xFFF :=
  ownFault_storeRegs_eq_none x s

theorem ownFault_draw_eq_none :
    ownFault (.draw x y n) s = none ↔ n.toNat = 0 ∨ s.i.toNat + n.toNat ≤ 0x1000 := by
  simp only [ownFault, ite_eq_right_iff, reduceCtorEq, imp_false]
  omega

end

/-- A failed check is the fatal error it names, taken from the state before the fetch
(60_exceptions.md R301 to R303). -/
theorem exec_of_ownFault {i : Instr} {s : State} {k : ErrorKind} (h : ownFault i s = some k) :
    exec i s = .next (s.raise k (some (encode i))) := by
  obtain ⟨-, -, hnone, -⟩ | ⟨k', hexec, hsome⟩ := exec_cases i s
  · cases hnone.symm.trans h
  · cases hsome.symm.trans h
    exact hexec

/-! ### CALL and RET -/

section
variable {nnn : Addr} {s : State} {v : Word} {rest : List Word}

theorem exec_call (h : s.stack.length < 16) :
    exec (.call nnn) s =
      .next ({ s.advance with stack := s.advance.pc :: s.stack }.setPc (addrWord nnn)) := by
  obtain ⟨-, hpush⟩ | ⟨hfull, -⟩ := push_cases s.advance s.advance.pc
  · simp only [exec, execCall, hpush]
    rfl
  · rw [State.advance_stack] at hfull
    omega

theorem exec_ret (h : s.stack = v :: rest) :
    exec .ret s = .next ({ s.advance with stack := rest }.setPc v) := by
  simp [exec, execRet, State.pop, h]

end

/-- A write of the stack keeps a frame that lets the stack change. -/
theorem Frame.setStack {may : List Part} {ws : List Reg} {s t : State} (h : Frame may ws s t)
    (hstack : Part.stack ∈ may) (l : List Word) : Frame may ws s { t with stack := l } where
  regs := h.regs
  index := h.index
  stack hns := absurd hstack hns
  delay := h.delay
  sound := h.sound
  memory := h.memory
  framebuffer := h.framebuffer
  driver := h.driver
  fault := h.fault
  inputs := h.inputs

/-- Settles O4: one write of the stack and one of `PC`. -/
theorem callPushesAndJumps : Obligations.CallPushesAndJumps := fun nnn s =>
  ⟨decode_call nnn, fun hroom => ⟨_, _, exec_call hroom, rfl, toNat_pc_advance s,
    toNat_addrWord nnn, ((Frame.refl [.stack] [] s).advance.setStack (by simp) _).setPc _⟩⟩

/-- Settles O5: the check on the stack's depth fails. -/
theorem callOnFullStackHalts : Obligations.CallOnFullStackHalts := fun _ _ hfull =>
  exec_of_ownFault (if_pos hfull)

/-- Settles O6: one write of the stack and one of `PC`. -/
theorem retPopsIntoPc : Obligations.RetPopsIntoPc :=
  ⟨decode_ret, fun v _ s hstack => ⟨_, exec_ret hstack, rfl, rfl,
    ((Frame.refl [.stack] [] s).advance.setStack (by simp) _).setPc v⟩⟩

/-- Settles O7: the check on the empty stack fails. -/
theorem retOnEmptyStackHalts : Obligations.RetOnEmptyStackHalts := fun _ hempty =>
  exec_of_ownFault (if_pos hempty)

/-- Settles O8: CALL left the post-fetch `PC` on top of the old stack, and RET takes it off. -/
theorem retUndoesCall : Obligations.RetUndoesCall := by
  intro nnn s t u hroom hcall hstack
  cases hcall.symm.trans (exec_call hroom)
  exact ⟨_, exec_ret hstack, toNat_pc_advance s, rfl⟩

end Sys2Proof.Machine
end

section
/-! PROOFS. SUBN, LD.I.FONT, RND, and the keypad and timer instructions (43_alu.md R190,
44_index_memory.md R222, 45_random_display.md R250, 46_keys_timers.md R270 to R276). -/

namespace Sys2Proof.Machine

/-! ### The meanings -/

section
variable (x y : Reg) (nn : Byte) (s : State)

theorem exec_subn :
    exec (.subn x y) s = .next (s.advance.setResultFlag x (s.getV y - s.getV x)
      (noBorrowFlag (s.getV y) (s.getV x))) := rfl

theorem exec_ldIFont :
    exec (.ldIFont x) s =
      .next (s.advance.setI (BitVec.ofNat 16 (glyphAddress (fontDigit (s.getV x))))) := rfl

theorem exec_rnd : exec (.rnd x nn) s = .next (s.advance.setV x (s.now.rnd &&& nn)) := rfl

theorem exec_skipKey :
    exec (.skipKey x) s = .next (s.advance.skipIf (s.pressed (s.getV x))) := rfl

theorem exec_skipNkey :
    exec (.skipNkey x) s = .next (s.advance.skipIf (!s.pressed (s.getV x))) := rfl

theorem exec_ldVxDt : exec (.ldVxDt x) s = .next (s.advance.setV x s.dt) := rfl

theorem exec_ldDtVx : exec (.ldDtVx x) s = .next { s.advance with dt := s.getV x } := rfl

theorem exec_ldStVx : exec (.ldStVx x) s = .next { s.advance with st := s.getV x } := rfl

/-- With a key held LD.VX.K is a register write (46_keys_timers.md R273). -/
theorem exec_ldVxK_of_held {k : Key} (h : lowestKey s.now.keys = some k) :
    exec (.ldVxK x) s = .next (s.advance.setV x (k.setWidth 8)) := by
  simp only [exec, execLdVxK, h]

/-- With no key held it enters the wait (46_keys_timers.md R273, 40_cycle_and_dispatch.md R119). -/
theorem exec_ldVxK_of_none (h : lowestKey s.now.keys = none) :
    exec (.ldVxK x) s = .next { s.advance with waitX := x, run := .waitingForKey } := by
  simp only [exec, execLdVxK, h]

end

/-! ### Writes of the timers and of the loop driver's state -/

section
variable {may : List Part} {ws : List Reg} {s t : State}

theorem Frame.setDelay (h : Frame may ws s t) (hdelay : Part.delay ∈ may) (v : Byte) :
    Frame may ws s { t with dt := v } where
  regs := h.regs
  index := h.index
  stack := h.stack
  delay hnd := absurd hdelay hnd
  sound := h.sound
  memory := h.memory
  framebuffer := h.framebuffer
  driver := h.driver
  fault := h.fault
  inputs := h.inputs

theorem Frame.setSound (h : Frame may ws s t) (hsound : Part.sound ∈ may) (v : Byte) :
    Frame may ws s { t with st := v } where
  regs := h.regs
  index := h.index
  stack := h.stack
  delay := h.delay
  sound hns := absurd hsound hns
  memory := h.memory
  framebuffer := h.framebuffer
  driver := h.driver
  fault := h.fault
  inputs := h.inputs

theorem Frame.setDriver (h : Frame may ws s t) (hdriver : Part.driver ∈ may) (x : Reg)
    (r : RunState) : Frame may ws s { t with waitX := x, run := r } where
  regs := h.regs
  index := h.index
  stack := h.stack
  delay := h.delay
  sound := h.sound
  memory := h.memory
  framebuffer := h.framebuffer
  driver hnd := absurd hdriver hnd
  fault := h.fault
  inputs := h.inputs

end

/-! ### Operands as numbers -/

/-- The glyph of the digit in the low nibble (44_index_memory.md R222); the address fits 12 bits. -/
theorem toNat_glyphAddress_fontDigit (v : Byte) :
    (BitVec.ofNat 16 (glyphAddress (fontDigit v))).toNat = 0x050 + 5 * (v.toNat % 16) := by
  rw [fontDigit_eq, glyphAddress, fontBase, glyphBytes, BitVec.toNat_ofNat]
  omega

/-- A key number is a byte of the same value. -/
theorem toNat_setWidth_key (k : Key) : (k.setWidth 8).toNat = k.toNat := by
  have := k.isLt
  rw [BitVec.toNat_setWidth]
  omega

/-- The key test of SKIP.NKEY (46_keys_timers.md R270, R272). -/
theorem not_pressed_iff (s : State) (v : Byte) :
    (!s.pressed v) = true ↔ ¬ (v.toNat ≤ 0xF ∧ s.now.keys.getLsbD v.toNat = true) := by
  rw [← pressed_iff, Bool.not_eq_true', Bool.not_eq_true]

/-- The lowest held key is the one LD.VX.K stores (46_keys_timers.md R273). -/
theorem lowestKey_eq_some {keys : BitVec 16} {k : Key} (hheld : keys.getLsbD k.toNat = true)
    (hlow : ∀ j < k.toNat, keys.getLsbD j = false) : lowestKey keys = some k := by
  cases hkey : lowestKey keys with
  | none =>
    rw [(lowestKey_none keys).1 hkey] at hheld
    simp at hheld
  | some k' =>
    obtain ⟨hheld', hlow'⟩ := lowestKey_some hkey
    have hle : k.toNat ≤ k'.toNat := by
      by_contra hlt
      simp [hlow _ (Nat.not_le.1 hlt)] at hheld'
    have hge : k'.toNat ≤ k.toNat := by
      by_contra hlt
      simp [hlow' _ (Nat.not_le.1 hlt)] at hheld
    rw [BitVec.eq_of_toNat_eq (Nat.le_antisymm hge hle)]

/-! ### The statements -/

/-- Settles O16: a byte difference and the no-borrow flag, flag last. -/
theorem subnDifferenceAndNoBorrow : Obligations.SubnDifferenceAndNoBorrow := fun x y s =>
  ⟨decode_subn x y,
    exec_setResultFlag_spec (exec_subn x y s) (toNat_byte_sub _ _) (toNat_noBorrowFlag _ _)⟩

/-- Settles O21: one write of the glyph's address to `I`. -/
theorem fontPointsAtGlyph : Obligations.FontPointsAtGlyph := fun x s =>
  ⟨decode_ldIFont x, exec_setI_spec (exec_ldIFont x s) (toNat_glyphAddress_fontDigit _)⟩

/-- Settles O27: one write of `Vx`; the tick's byte is the schedule's or the free value. -/
theorem rndMasksRandomByte : Obligations.RndMasksRandomByte := by
  intro x nn s
  obtain ⟨t, ht, hv, hrest⟩ := exec_setV_spec (exec_rnd x nn s)
  refine ⟨decode_rnd x nn, t, ht, ?_, hrest⟩
  rw [hv, State.now]
  cases s.inputs <;> rfl

/-- Settles O32: SKIP.KEY is a skip on the key test, SKIP.NKEY one on its negation. -/
theorem skipKeyTestsKey : Obligations.SkipKeyTestsKey := by
  intro x s
  obtain ⟨t, ht, hpc, hframe⟩ := exec_skip_spec (exec_skipKey x s) (pressed_iff s _)
  obtain ⟨u, hu, hpc', hframe'⟩ := exec_skip_spec (exec_skipNkey x s) (not_pressed_iff s _)
  exact ⟨decode_skipKey x, decode_skipNkey x, ⟨t, ht, hframe, hpc⟩,
    ⟨u, hu, hframe', by rw [hpc', ite_not]⟩⟩

/-- Settles O33: one write of the lowest held key to `Vx`. -/
theorem keyHeldIsStoredAtOnce : Obligations.KeyHeldIsStoredAtOnce := by
  intro x k s
  refine ⟨decode_ldVxK x, fun hheld hlow => ?_⟩
  obtain ⟨t, ht, hv, hrest⟩ :=
    exec_setV_spec (exec_ldVxK_of_held x s (lowestKey_eq_some hheld hlow))
  exact ⟨t, ht, by rw [hv, toNat_setWidth_key], hrest⟩

/-- Settles O34: one write of the loop driver's state. -/
theorem noKeyHeldWaits : Obligations.NoKeyHeldWaits := fun x s hnone =>
  ⟨_, exec_ldVxK_of_none x s ((lowestKey_none _).2 hnone), rfl, rfl, toNat_pc_advance s,
    (Frame.refl [.driver] [] s).advance.setDriver (by simp) x .waitingForKey⟩

/-- Settles O36: a write of `Vx`, of the delay timer and of the sound timer; the old timer is what
is read. -/
theorem timerMovesReadAndWrite : Obligations.TimerMovesReadAndWrite := fun x s =>
  ⟨decode_ldVxDt x, decode_ldDtVx x, decode_ldStVx x, exec_setV_spec (exec_ldVxDt x s),
    ⟨_, exec_ldDtVx x s, rfl, toNat_pc_advance s,
      (Frame.refl [.delay] [] s).advance.setDelay (by simp) _⟩,
    ⟨_, exec_ldStVx x s, rfl, toNat_pc_advance s,
      (Frame.refl [.sound] [] s).advance.setSound (by simp) _⟩⟩

end Sys2Proof.Machine
end

section
/-! PROOFS. The block instructions STORE.BCD, STORE.REGS and LOAD.REGS (44_index_memory.md R223 to
R225): what each does when its block lies in memory, and the fatal error when it does not. -/

namespace Sys2Proof.Machine

/-! ### The meanings, inside memory -/

section
variable {s : State} {base len : Nat} {bs : List Byte}

theorem readBlock_of_fits (h : len = 0 ∨ base + len ≤ 0x1000) :
    s.readBlock base len = some (readBytes s.mem base len) :=
  if_pos ((blockInRange_iff base len).2 h)

theorem writeBlock_of_fits (h : base + bs.length ≤ 0x1000) :
    s.writeBlock base bs = some { s with mem := writeBytes s.mem base bs } :=
  if_pos ((blockInRange_iff base bs.length).2 (.inr h))

end

section
variable {x : Reg} {s : State}

theorem exec_storeBcd (h : s.i.toNat + 2 ≤ 0xFFF) :
    exec (.storeBcd x) s =
      .next { s.advance with mem := writeBytes s.mem s.i.toNat (bcdDigits (s.getV x)) } := by
  have hfits : s.i.toNat + (bcdDigits (s.getV x)).length ≤ 0x1000 := by
    rw [length_bcdDigits]
    omega
  simp only [exec, execStoreBcd, writeBlock_of_fits hfits, State.advance_mem]

theorem exec_storeRegs (h : s.i.toNat + x.toNat ≤ 0xFFF) :
    exec (.storeRegs x) s =
      .next { s.advance with mem := writeBytes s.mem s.i.toNat (s.regsUpTo x) } := by
  have hfits : s.i.toNat + (s.regsUpTo x).length ≤ 0x1000 := by
    rw [length_regsUpTo]
    omega
  simp only [exec, execStoreRegs, writeBlock_of_fits hfits, State.advance_mem]

theorem exec_loadRegs (h : s.i.toNat + x.toNat ≤ 0xFFF) :
    exec (.loadRegs x) s =
      .next { s.advance with
        regs := writeRegsFrom 0 (readBytes s.mem s.i.toNat (x.toNat + 1)) s.regs } := by
  have hfits : x.toNat + 1 = 0 ∨ s.i.toNat + (x.toNat + 1) ≤ 0x1000 := by omega
  simp only [exec, execLoadRegs, readBlock_of_fits hfits]

end

/-! ### Memory and register blocks in a state -/

section
variable {may : List Part} {ws : List Reg} {s t : State}

/-- A write of memory keeps a frame that lets memory change. -/
theorem Frame.setMemory (h : Frame may ws s t) (hmem : Part.memory ∈ may) (m : Memory) :
    Frame may ws s { t with mem := m } where
  regs := h.regs
  index := h.index
  stack := h.stack
  delay := h.delay
  sound := h.sound
  memory hnm := absurd hmem hnm
  framebuffer := h.framebuffer
  driver := h.driver
  fault := h.fault
  inputs := h.inputs

/-- Writing a register file that differs only in registers the frame lets change keeps the
frame. -/
theorem Frame.setRegs (h : Frame may ws s t) (v : Vector Byte 16)
    (hv : ∀ r ∉ ws, State.getV { t with regs := v } r = t.getV r) :
    Frame may ws s { t with regs := v } where
  regs r hr := (hv r hr).trans (h.regs r hr)
  index := h.index
  stack := h.stack
  delay := h.delay
  sound := h.sound
  memory := h.memory
  framebuffer := h.framebuffer
  driver := h.driver
  fault := h.fault
  inputs := h.inputs

/-- A block stored at `base` leaves every byte outside it as it was. -/
theorem memSameOutside_writeBytes (hm : Rising s.mem) (base : Nat) {bs : List Byte} {len : Nat}
    (hlen : bs.length = len) (ht : t.mem = writeBytes s.mem base bs) :
    MemSameOutside base len s t := by
  subst hlen
  intro a ha
  rw [ht, memGet_writeBytes_outside hm bs base a ha]

/-- A register after a block is loaded into V0 and on: its byte inside the block, its old value
above it. -/
theorem getV_writeRegsFrom_zero (s : State) (bs : List Byte) (r : Reg) :
    State.getV { s with regs := writeRegsFrom 0 bs s.regs } r =
      if r.toNat < bs.length then bs.getD r.toNat 0 else s.getV r := by
  simp only [State.getV, getElem_writeRegsFrom, Nat.zero_le, true_and, Nat.zero_add, Nat.sub_zero]

/-- LOAD.REGS reads its registers from the bytes at `I` and on and keeps those above `x`. -/
theorem getV_loadRegs (s : State) (x r : Reg) :
    State.getV { s.advance with
        regs := writeRegsFrom 0 (readBytes s.mem s.i.toNat (x.toNat + 1)) s.regs } r =
      if r.toNat ≤ x.toNat then memGet s.mem (s.i.toNat + r.toNat) else s.getV r := by
  have hlen := length_readBytes s.mem s.i.toNat (x.toNat + 1)
  refine (getV_writeRegsFrom_zero s.advance _ r).trans ?_
  by_cases hr : r.toNat ≤ x.toNat
  · have hlt : r.toNat < x.toNat + 1 := Nat.lt_succ_of_le hr
    rw [if_pos hr, if_pos (hlen.symm ▸ hlt), List.getD_eq_getElem _ _ (hlen.symm ▸ hlt),
      getElem_readBytes _ _ _ _ hlt]
  · rw [if_neg hr, if_neg (by omega), State.getV_advance]

end

/-! ### The statements -/

/-- Settles O22: the three digits are stored as one block at `I`. -/
theorem storeBcdStoresDigits : Obligations.StoreBcdStoresDigits := by
  intro x s
  refine ⟨decode_storeBcd x, fun hwf hfits => ?_⟩
  obtain ⟨hundreds, tens, units, hdigits, hh, ht, hu⟩ := bcdDigits_spec (s.getV x)
  have hread {k : Nat} (hk : k < 3) :
      memGet (writeBytes s.mem s.i.toNat (bcdDigits (s.getV x))) (s.i.toNat + k) =
        [hundreds, tens, units].getD k 0 :=
    hdigits ▸ memGet_writeBytes_add hwf.rising _ _ hk
  exact ⟨_, exec_storeBcd hfits, hread (k := 0) (by omega) ▸ hh, hread (k := 1) (by omega) ▸ ht,
    hread (k := 2) (by omega) ▸ hu,
    memSameOutside_writeBytes hwf.rising _ (length_bcdDigits _) rfl, toNat_pc_advance s,
    (Frame.refl [.memory] [] s).advance.setMemory (by simp) _⟩

/-- STORE.REGS stores `Vr` at `I + r` (44_index_memory.md R224). -/
theorem memGet_storeRegs {s : State} (hm : Rising s.mem) {x r : Reg} (hr : r.toNat ≤ x.toNat) :
    memGet (writeBytes s.mem s.i.toNat (s.regsUpTo x)) (s.i.toNat + r.toNat) = s.getV r := by
  rw [memGet_writeBytes_add hm _ _ (by rw [length_regsUpTo]; omega), getD_regsUpTo s x r hr]

/-- Settles O23: the registers are stored as one block at `I`. -/
theorem storeRegsStoresRegisters : Obligations.StoreRegsStoresRegisters := fun x s =>
  ⟨decode_storeRegs x, fun hwf hfits => ⟨_, exec_storeRegs hfits,
    fun _ hr => memGet_storeRegs hwf.rising hr,
    memSameOutside_writeBytes hwf.rising _ (length_regsUpTo s x) rfl, toNat_pc_advance s,
    (Frame.refl [.memory] [] s).advance.setMemory (by simp) _⟩⟩

/-- Settles O24: the registers up to `x` are loaded from one block at `I`. -/
theorem loadRegsLoadsRegisters : Obligations.LoadRegsLoadsRegisters := by
  intro x s
  have habove {r : Reg} (hr : x.toNat < r.toNat) := (getV_loadRegs s x r).trans (if_neg (by omega))
  refine ⟨decode_loadRegs x, fun hfits => ⟨_, exec_loadRegs hfits,
    fun r hr => (getV_loadRegs s x r).trans (if_pos hr), fun r hr => habove hr,
    toNat_pc_advance s, (Frame.refl [] (regsThrough x) s).advance.setRegs _ fun r hr => ?_⟩⟩
  exact habove (by simpa [mem_regsThrough] using hr)

/-- Settles O25: the check of the whole block fails before anything moves. -/
theorem blockPastEndHalts : Obligations.BlockPastEndHalts := by
  intro x y n s halted
  refine ⟨fun hpast => exec_of_ownFault (if_pos ?_), fun hpast =>
    ⟨exec_of_ownFault (if_pos ?_), exec_of_ownFault (if_pos ?_)⟩,
    fun hrows hpast => exec_of_ownFault (if_pos ?_)⟩ <;> omega

/-- A fetch below 0xFFF by the two bytes it reads (20_memory.md R57). -/
theorem fetch_of_bytes {s : State} {hi lo : Byte} (hpc : s.pc.toNat < 0xFFF)
    (hhi : memGet s.mem s.pc.toNat = hi) (hlo : memGet s.mem (s.pc.toNat + 1) = lo) :
    s.fetch = some (wordOfBytes hi lo) := by
  obtain ⟨-, hfetch⟩ | ⟨hend, -⟩ := fetch_cases s
  · rw [hfetch, hhi, hlo]
  · omega

/-- Settles O26: STORE.REGS stores V0 and V1 where the next fetch reads its two bytes. -/
theorem storeSeenByNextFetch : Obligations.StoreSeenByNextFetch := by
  intro x s t hwf hx hi hfits hexec
  obtain ⟨t', hexec', hbytes, -, hpc, -⟩ := (storeRegsStoresRegisters x s).2 hwf hfits
  cases hexec.symm.trans hexec'
  rw [← hi] at hpc
  refine fetch_of_bytes (by omega) ?high ?low
  case high => rw [hpc]; exact hbytes 0 (Nat.zero_le _)
  case low => rw [hpc]; exact hbytes 1 hx

end Sys2Proof.Machine
end

section
/-! PROOFS. DRAW (45_random_display.md R252 to R255): the pixels a blit inverts, the collision it
reports, and that a second blit undoes the first. -/

namespace Sys2Proof.Machine

/-! ### The blit -/

section
variable {x0 y0 : Byte} {rows : List Byte} {fb : Framebuffer}

/-- The pixels the blit's loop visits are the covered ones (45_random_display.md R255). -/
theorem mem_spritePixels_zero {p : Fin 64 × Fin 32} :
    p ∈ spritePixels x0 y0 0 rows ↔ SpriteCovers x0 y0 rows p.1 p.2 := by
  simp only [mem_spritePixels, Nat.zero_add, SpriteCovers]

/-- A covered pixel is inverted. -/
theorem fbGet_blit_of_covers (hrows : rows.length ≤ 32) {px : Fin 64} {py : Fin 32}
    (h : SpriteCovers x0 y0 rows px py) :
    fbGet (blit x0 y0 rows fb).1 px py = !fbGet fb px py := by
  have hnodup := nodup_spritePixels x0 y0 0 rows (by omega)
  exact ((foldl_plot _ hnodup fb false).1 (px, py)).trans (if_pos (mem_spritePixels_zero.2 h))

/-- A pixel that is not covered is kept. -/
theorem fbGet_blit_of_not_covers (hrows : rows.length ≤ 32) {px : Fin 64} {py : Fin 32}
    (h : ¬ SpriteCovers x0 y0 rows px py) :
    fbGet (blit x0 y0 rows fb).1 px py = fbGet fb px py := by
  have hnodup := nodup_spritePixels x0 y0 0 rows (by omega)
  exact ((foldl_plot _ hnodup fb false).1 (px, py)).trans (if_neg (mem_spritePixels_zero.not.2 h))

/-- A collision is a covered pixel that was lit. -/
theorem blit_collision_iff (hrows : rows.length ≤ 32) :
    (blit x0 y0 rows fb).2 = true ↔
      ∃ px py, SpriteCovers x0 y0 rows px py ∧ fbGet fb px py = true := by
  have hnodup := nodup_spritePixels x0 y0 0 rows (by omega)
  refine (foldl_plot _ hnodup fb false).2.trans ?_
  simp [mem_spritePixels_zero]

/-- Blitting the same rows at the same place twice restores the screen. -/
theorem blit_blit (hrows : rows.length ≤ 32) :
    (blit x0 y0 rows (blit x0 y0 rows fb).1).1 = fb := by
  refine framebuffer_ext fun px py => ?_
  by_cases h : SpriteCovers x0 y0 rows px py
  · rw [fbGet_blit_of_covers hrows h, fbGet_blit_of_covers hrows h, Bool.not_not]
  · rw [fbGet_blit_of_not_covers hrows h, fbGet_blit_of_not_covers hrows h]

end

/-! ### The instruction -/

/-- The sprite rows DRAW reads at `I` (45_random_display.md R252). -/
def State.spriteRows (s : State) (n : Nibble) : List Byte := readBytes s.mem s.i.toNat n.toNat

theorem length_spriteRows (s : State) (n : Nibble) : (s.spriteRows n).length = n.toNat :=
  length_readBytes _ _ _

/-- A sprite has at most 15 rows, so no row of it wraps onto another. -/
theorem length_spriteRows_le (s : State) (n : Nibble) : (s.spriteRows n).length ≤ 32 := by
  have := n.isLt
  rw [length_spriteRows]
  omega

/-- The rows are the bytes at `I`, `I + 1` and on. -/
theorem spriteRows_eq_map (s : State) (n : Nibble) :
    s.spriteRows n = (List.range n.toNat).map fun r => memGet s.mem (s.i.toNat + r) := by
  refine List.ext_getElem (by simp [length_spriteRows]) fun k hk _ => ?_
  rw [length_spriteRows] at hk
  simp only [State.spriteRows, getElem_readBytes _ _ _ _ hk, List.getElem_map, List.getElem_range]

/-- What the Display answers DRAW's request: the framebuffer and the collision. -/
def State.drawn (s : State) (x y : Reg) (n : Nibble) : Framebuffer × Bool :=
  blit (s.getV x) (s.getV y) (s.spriteRows n) s.fb

/-- The state DRAW answers when its rows lie in memory. -/
def State.afterDraw (s : State) (x y : Reg) (n : Nibble) : State :=
  { s.advance with fb := (s.drawn x y n).1 }.setV regVF (flagByte (s.drawn x y n).2)

section
variable {x y : Reg} {n : Nibble} {s : State}

theorem exec_draw (h : n.toNat = 0 ∨ s.i.toNat + n.toNat ≤ 0x1000) :
    exec (.draw x y n) s = .next (s.afterDraw x y n) := by
  simp only [exec, execDraw, readBlock_of_fits h]
  rfl

theorem afterDraw_fb : (s.afterDraw x y n).fb = (s.drawn x y n).1 := rfl

theorem spriteRows_afterDraw (m : Nibble) : (s.afterDraw x y n).spriteRows m = s.spriteRows m := rfl

theorem getV_afterDraw_vf : (s.afterDraw x y n).getV regVF = flagByte (s.drawn x y n).2 :=
  (State.getV_setV _ _ _ _).trans (if_pos rfl)

theorem getV_afterDraw_of_ne {r : Reg} (hr : r ≠ regVF) :
    (s.afterDraw x y n).getV r = s.getV r :=
  (State.getV_setV _ _ _ _).trans (if_neg hr)

theorem pc_afterDraw : (s.afterDraw x y n).pc.toNat = s.pcPlus2 := toNat_pc_advance s

/-- DRAW writes the framebuffer and VF. -/
theorem frame_afterDraw : Frame [.framebuffer] [regVF] s (s.afterDraw x y n) :=
  ((Frame.refl _ _ s).advance.setFramebuffer (by simp) _).setV (by simp) _

end

/-- Settles O29: the blit inverts the covered pixels, and its collision goes to VF. -/
theorem drawInvertsCoveredPixels : Obligations.DrawInvertsCoveredPixels := by
  intro x y n s
  refine ⟨decode_draw x y n, fun hfits => ?_⟩
  rw [← spriteRows_eq_map]
  intro rows covers
  have hrange : n.toNat = 0 ∨ s.i.toNat + n.toNat ≤ 0x1000 := by
    rcases hfits with rfl | h
    · exact .inl rfl
    · omega
  have hrows : rows.length ≤ 32 := length_spriteRows_le s n
  have hflag : (s.drawn x y n).2 = true ↔ ∃ px py, covers px py ∧ fbGet s.fb px py = true :=
    blit_collision_iff hrows
  refine ⟨_, exec_draw hrange, fun px py => fbGet_blit_of_covers hrows,
    fun px py => fbGet_blit_of_not_covers hrows, fun hlit => ?lit, fun hdark => ?dark,
    pc_afterDraw, frame_afterDraw⟩
  case lit => exact getV_afterDraw_vf.trans (congrArg flagByte (hflag.2 hlit))
  case dark =>
    exact getV_afterDraw_vf.trans (congrArg flagByte (Bool.eq_false_iff.2 (hflag.not.2 hdark)))

/-- Settles O30: both draws fail their check, which reads `I` alone, or both blit the same rows at
the same place. -/
theorem drawTwiceRestoresScreen : Obligations.DrawTwiceRestoresScreen := by
  intro x y n s t u hx hy ht hu
  by_cases hfits : n.toNat = 0 ∨ s.i.toNat + n.toNat ≤ 0x1000
  · cases ht.symm.trans (exec_draw hfits)
    cases hu.symm.trans (exec_draw hfits)
    rw [afterDraw_fb, State.drawn, getV_afterDraw_of_ne hx, getV_afterDraw_of_ne hy,
      spriteRows_afterDraw, afterDraw_fb]
    exact blit_blit (length_spriteRows_le s n)
  · have hfault : ownFault (.draw x y n) s = some .memoryOutOfRange := if_pos (by omega)
    cases ht.symm.trans (exec_of_ownFault hfault)
    cases hu.symm.trans (exec_of_ownFault hfault)
    rfl

end Sys2Proof.Machine
end

section
/-! PROOFS. What each of the 35 instructions changes (10_state.md R23, R24; 20_memory.md R60): its
frame, the bytes it stores, and the framebuffer by the request it makes of the Display
(60_exceptions.md R313). -/

namespace Sys2Proof.Machine

/-! ### Registers and parts -/

/-- An instruction whose own check passes completes and writes only what its rows of the two tables
let it. -/
theorem exec_frame {i : Instr} {s : State} (h : ownFault i s = none) :
    ∃ t, exec i s = .next t ∧ Frame (mayWriteParts i) (mayWriteRegs i) s t := by
  have advanced {may ws} : Frame may ws s s.advance := (Frame.refl may ws s).advance
  cases i with
  | cls => exact ⟨_, exec_cls s, advanced.setFramebuffer (.head _) _⟩
  | ret =>
    obtain ⟨v, rest, hstack⟩ := List.exists_cons_of_ne_nil ((ownFault_ret_eq_none s).1 h)
    exact ⟨_, exec_ret hstack, (advanced.setStack (.head _) rest).setPc v⟩
  | sys nnn => exact ⟨_, exec_sys nnn s, advanced⟩
  | jmp nnn => exact ⟨_, exec_jmp nnn s, advanced.setPc _⟩
  | call nnn =>
    exact ⟨_, exec_call ((ownFault_call_eq_none nnn s).1 h),
      (advanced.setStack (.head _) _).setPc _⟩
  | skipEqImm x nn => exact ⟨_, exec_skipEqImm x nn s, advanced.skipIf _⟩
  | skipNeImm x nn => exact ⟨_, exec_skipNeImm x nn s, advanced.skipIf _⟩
  | skipEqReg x y z => exact ⟨_, exec_skipEqReg x y z s, advanced.skipIf _⟩
  | movImm x nn => exact ⟨_, exec_movImm x nn s, advanced.setV (.head _) _⟩
  | addImm x nn => exact ⟨_, exec_addImm x nn s, advanced.setV (.head _) _⟩
  | movReg x y => exact ⟨_, exec_movReg x y s, advanced.setV (.head _) _⟩
  | or x y => exact ⟨_, exec_or x y s, advanced.setV (.head _) _⟩
  | and x y => exact ⟨_, exec_and x y s, advanced.setV (.head _) _⟩
  | xor x y => exact ⟨_, exec_xor x y s, advanced.setV (.head _) _⟩
  | addReg x y =>
    exact ⟨_, exec_addReg x y s, advanced.setResultFlag (.head _) (.tail _ (.head _)) _ _⟩
  | sub x y => exact ⟨_, exec_sub x y s, advanced.setResultFlag (.head _) (.tail _ (.head _)) _ _⟩
  | shr x z => exact ⟨_, exec_shr x z s, advanced.setResultFlag (.head _) (.tail _ (.head _)) _ _⟩
  | subn x y =>
    exact ⟨_, exec_subn x y s, advanced.setResultFlag (.head _) (.tail _ (.head _)) _ _⟩
  | shl x z => exact ⟨_, exec_shl x z s, advanced.setResultFlag (.head _) (.tail _ (.head _)) _ _⟩
  | skipNeReg x y z => exact ⟨_, exec_skipNeReg x y z s, advanced.skipIf _⟩
  | movI nnn => exact ⟨_, exec_movI nnn s, advanced.setI (.head _) _⟩
  | jmpV0 nnn => exact ⟨_, exec_jmpV0 nnn s, advanced.setPc _⟩
  | rnd x nn => exact ⟨_, exec_rnd x nn s, advanced.setV (.head _) _⟩
  | draw x y n => exact ⟨_, exec_draw ((ownFault_draw_eq_none x y n s).1 h), frame_afterDraw⟩
  | skipKey x => exact ⟨_, exec_skipKey x s, advanced.skipIf _⟩
  | skipNkey x => exact ⟨_, exec_skipNkey x s, advanced.skipIf _⟩
  | ldVxDt x => exact ⟨_, exec_ldVxDt x s, advanced.setV (.head _) _⟩
  | ldVxK x =>
    cases hkey : lowestKey s.now.keys with
    | some k => exact ⟨_, exec_ldVxK_of_held x s hkey, advanced.setV (.head _) _⟩
    | none => exact ⟨_, exec_ldVxK_of_none x s hkey, advanced.setDriver (.head _) _ _⟩
  | ldDtVx x => exact ⟨_, exec_ldDtVx x s, advanced.setDelay (.head _) _⟩
  | ldStVx x => exact ⟨_, exec_ldStVx x s, advanced.setSound (.head _) _⟩
  | addI x => exact ⟨_, exec_addI x s, advanced.setI (.head _) _⟩
  | ldIFont x => exact ⟨_, exec_ldIFont x s, advanced.setI (.head _) _⟩
  | storeBcd x =>
    exact ⟨_, exec_storeBcd ((ownFault_storeBcd_eq_none x s).1 h),
      advanced.setMemory (.head _) _⟩
  | storeRegs x =>
    exact ⟨_, exec_storeRegs ((ownFault_storeRegs_eq_none x s).1 h),
      advanced.setMemory (.head _) _⟩
  | loadRegs x =>
    obtain ⟨t, hexec, -, -, -, hframe⟩ :=
      (loadRegsLoadsRegisters x s).2 ((ownFault_loadRegs_eq_none x s).1 h)
    exact ⟨t, hexec, hframe⟩

section
variable {i : Instr} {s t : State}

/-- The frame of the state an instruction answers when its own check passes. -/
theorem frame_of_exec (hexec : exec i s = .next t) (h : ownFault i s = none) :
    Frame (mayWriteParts i) (mayWriteRegs i) s t := by
  obtain ⟨u, hu, hframe⟩ := exec_frame h
  cases hexec.symm.trans hu
  exact hframe

/-- An instruction that does not end in Halted passed its own check. -/
theorem ownFault_eq_none_of_exec (hexec : exec i s = .next t) (hrun : t.run ≠ .halted) :
    ownFault i s = none := by
  obtain ⟨-, -, hnone, -⟩ | ⟨k, hraise, -⟩ := exec_cases i s
  · exact hnone
  · cases hexec.symm.trans hraise
    exact absurd rfl hrun

/-! ### Bytes of memory -/

/-- Only the two store instructions write memory, each one block at `I` (20_memory.md R60). -/
theorem memSameOutside_of_exec (hm : Rising s.mem) (hexec : exec i s = .next t)
    (h : ownFault i s = none) : MemSameOutside s.i.toNat (storeWidth i) s t := by
  by_cases hmem : Part.memory ∈ mayWriteParts i
  · cases i with
    | storeBcd x =>
      cases hexec.symm.trans (exec_storeBcd ((ownFault_storeBcd_eq_none x s).1 h))
      exact memSameOutside_writeBytes hm _ (length_bcdDigits _) rfl
    | storeRegs x =>
      cases hexec.symm.trans (exec_storeRegs ((ownFault_storeRegs_eq_none x s).1 h))
      exact memSameOutside_writeBytes hm _ (length_regsUpTo s x) rfl
    | _ => simp [mayWriteParts] at hmem
  · exact fun a _ => (frame_of_exec hexec h).memory hmem a

/-- Settles O58: an instruction that does not halt passed its check, so it has its frame. -/
theorem instructionsKeepTheirFrames : Obligations.InstructionsKeepTheirFrames := by
  intro i s t hexec hrun
  have hown := ownFault_eq_none_of_exec hexec hrun
  exact ⟨frame_of_exec hexec hown, fun hwf => memSameOutside_of_exec hwf.rising hexec hown⟩

/-! ### The framebuffer -/

/-- The framebuffer after a request, if there is one. -/
def displayed (q : Option DisplayRequest) (fb : Framebuffer) : Framebuffer :=
  q.elim fb fun q => (performRequest q fb).1

/-- An instruction whose own check fails makes no request. -/
theorem instrRequest_of_ownFault {k : ErrorKind} (h : ownFault i s = some k) :
    instrRequest i s = none := by
  cases i with
  | draw x y n =>
    obtain ⟨hrange, -⟩ | ⟨-, hread⟩ := readBlock_cases s s.i.toNat n.toNat
    · have hnone := (ownFault_draw_eq_none x y n s).2 ((blockInRange_iff _ _).1 hrange)
      cases hnone.symm.trans h
    · simp only [instrRequest, hread, Option.map_none]
  | cls => cases h
  | _ => rfl

/-- An instruction changes the framebuffer by its request. -/
theorem fb_of_exec (hexec : exec i s = .next t) : t.fb = displayed (instrRequest i s) s.fb := by
  cases hown : ownFault i s with
  | some k =>
    cases hexec.symm.trans (exec_of_ownFault hown)
    rw [instrRequest_of_ownFault hown]
    rfl
  | none =>
    by_cases hfb : Part.framebuffer ∈ mayWriteParts i
    · cases i with
      | cls =>
        cases hexec.symm.trans (exec_cls s)
        rfl
      | draw x y n =>
        have hfits := (ownFault_draw_eq_none x y n s).1 hown
        cases hexec.symm.trans (exec_draw hfits)
        simp only [instrRequest, readBlock_of_fits hfits]
        rfl
      | _ => simp [mayWriteParts] at hfb
    · have hreq : instrRequest i s = none := by
        cases i with
        | cls | draw => simp [mayWriteParts] at hfb
        | _ => rfl
      rw [hreq]
      exact (frame_of_exec hexec hown).framebuffer hfb

end

end Sys2Proof.Machine
end

section
/-! PROOFS. The tick (40_cycle_and_dispatch.md R110 to R122): its end, the ways it halts, a tick of
the wait, the placed instruction, and the framebuffer and the key event over a whole tick. -/

namespace Sys2Proof.Machine

/-! ### The end of a tick -/

/-- Unless the block has halted the timers count down on the strobe and the inputs are used up
(40_cycle_and_dispatch.md R122). -/
theorem endTick_of_not_halted {t : State} (h : t.run ≠ .halted) (inp : TickInput) :
    t.endTick inp =
      { t with
        dt := if inp.timerTick then countTimer t.dt else t.dt
        st := if inp.timerTick then countTimer t.st else t.st
        inputs := t.inputs.tail
        ticks := t.ticks + 1 } := by
  have hend : t.endTick inp = (t.strobe inp.timerTick).popInput := by
    cases hrun : t.run
    case halted => exact absurd hrun h
    all_goals simp only [State.endTick, hrun]
  rw [hend, ← strobeTimer_countTimer, ← strobeTimer_countTimer]
  rfl

/-- Settles O39: nothing in Halted, else the countdown on the strobe. -/
theorem endOfTickCountsDown : Obligations.EndOfTickCountsDown := fun _ inp =>
  ⟨fun h => State.endTick_of_halted h inp, fun h => endTick_of_not_halted h inp⟩

/-! ### The ways a tick goes -/

section
variable {s t : State}

theorem step_of_halted (h : s.run = .halted) : step s = .next s := by
  simp only [step, tick, h]

/-- A quit wins over the instruction and the wait (40_cycle_and_dispatch.md R112). -/
theorem step_of_quit (h : s.run ≠ .halted) (hq : s.now.quit = true) :
    step s = .next { s with run := .halted } := by
  obtain ⟨hrun, -⟩ | ⟨-, -, hstep⟩ | ⟨-, hnq, -⟩ | ⟨-, hnq, -⟩ := tick_cases s
  · exact absurd hrun h
  · exact hstep
  · cases hnq.symm.trans hq
  · cases hnq.symm.trans hq

/-- A Running tick without a quit is an instruction cycle and the end of the tick. -/
theorem step_of_executeOne (hrun : s.run = .running) (hq : s.now.quit = false)
    (hexec : executeOne s = .next t) : step s = .next (t.endTick s.now) := by
  simp [step, tick, hrun, hq, hexec]

/-- A tick of the wait without a quit (40_cycle_and_dispatch.md R120). -/
theorem step_of_waiting (hrun : s.run = .waitingForKey) (hq : s.now.quit = false) :
    step s = .next ((s.waitStep s.now.keyEvent).endTick s.now) := by
  simp [step, tick, hrun, hq]

/-- A fatal error of the instruction cycle is the state after the tick: there is no countdown
(40_cycle_and_dispatch.md R121). -/
theorem step_of_raise {k : ErrorKind} {o : Option Word} (hrun : s.run = .running)
    (hq : s.now.quit = false) (hexec : executeOne s = .next (s.raise k o)) :
    step s = .next (s.raise k o) :=
  State.endTick_of_halted (State.raise_run s k o) s.now ▸ step_of_executeOne hrun hq hexec

/-! ### The ways an instruction cycle goes -/

theorem executeOne_of_decode {op : Word} {i : Instr} (hfetch : s.fetch = some op)
    (hdecode : decode op = .ok i) : executeOne s = exec i s := by
  simp only [executeOne, hfetch, hdecode]

end

/-- Settles O57: each of the four ways a tick goes answers a next state. -/
theorem stepAlwaysAnswersNext : Obligations.StepAlwaysAnswersNext := by
  intro s
  obtain ⟨-, h⟩ | ⟨-, -, h⟩ | ⟨-, -, t, -, h⟩ | ⟨-, -, h⟩ := tick_cases s <;> exact ⟨_, h⟩

/-- A run of `n + 1` steps goes on from the state its first step answers. -/
theorem run_succ_of_step {M : Host.Core} {s s' : M.State} (h : M.step s = .next s') (n : Nat) :
    M.run (n + 1) s = M.run n s' := by
  simp only [Host.Core.run, h]

/-- Settles O43: by induction on the number of steps. -/
theorem haltedForever : Obligations.HaltedForever := by
  intro n s hrun
  induction n with
  | zero => rfl
  | succ n ih => exact (run_succ_of_step (M := Sys2Proof.core) (step_of_halted hrun) n).trans ih

/-- Settles O44: a quit comes before the instruction and the wait. -/
theorem quitHaltsAtOnce : Obligations.QuitHaltsAtOnce := fun _ hrun hq => step_of_quit hrun hq

/-- Settles O38: the instruction cycle is exec of the decoded instruction. -/
theorem stepRunsDecodedInstruction : Obligations.StepRunsDecodedInstruction :=
  fun _ _ _ _ hrun hq hfetch hdecode hexec =>
    step_of_executeOne hrun hq ((executeOne_of_decode hfetch hdecode).trans hexec)

/-- Settles O41: the fetch fails, which is a fatal error without a word. -/
theorem fetchPastEndHalts : Obligations.FetchPastEndHalts := by
  intro s hrun hq hpc
  obtain ⟨hlt, -⟩ | ⟨-, hfetch⟩ := fetch_cases s
  · omega
  · exact step_of_raise hrun hq (by simp only [executeOne, hfetch])

/-- Settles O42: the word selects nothing, which is a fatal error with that word. -/
theorem invalidWordHalts : Obligations.InvalidWordHalts := by
  intro s op hrun hq hfetch hinvalid
  cases hdecode : decode op with
  | ok i => exact absurd hdecode (hinvalid i)
  | error e => exact step_of_raise hrun hq (by simp only [executeOne, hfetch, hdecode])

/-! ### A tick of the wait -/

section
variable (s : State) (e : Option Key)

/-- A step of the wait writes the register latched and `run`, and nothing else
(40_cycle_and_dispatch.md R120). -/
theorem waitStep_eq :
    s.waitStep e = { s with regs := (s.waitStep e).regs, run := (s.waitStep e).run } := by
  cases e <;> rfl

theorem waitStep_run_ne_halted (h : s.run = .waitingForKey) : (s.waitStep e).run ≠ .halted := by
  cases e <;> simp [State.waitStep, h]

end

/-- Settles O45: the tick is a step of the wait and the end of the tick; the event decides whether
the step writes. -/
theorem waitTickStoresEventKey : Obligations.WaitTickStoresEventKey := by
  intro s hrun hq
  have hstep := step_of_waiting hrun hq
  rw [endTick_of_not_halted (waitStep_run_ne_halted s _ hrun), waitStep_eq] at hstep
  refine ⟨_, hstep, rfl, rfl, rfl, rfl, rfl, rfl, rfl, rfl, rfl, fun hnone => ?none,
    fun k hsome => ?some⟩
  case none =>
    rw [hnone]
    exact ⟨hrun, fun _ => rfl⟩
  case some =>
    rw [hsome]
    refine ⟨rfl, ?_, fun r hr => ?_⟩
    · exact (congrArg BitVec.toNat ((State.getV_setV s s.waitX s.waitX _).trans (if_pos rfl))).trans
        (toNat_setWidth_key k)
    · exact (State.getV_setV s s.waitX r _).trans (if_neg hr)

/-! ### A placed instruction -/

theorem decode_of_decodeTableWord {n w : Nat} {i : Instr} (h : decodeTableWord n w = some i) :
    decode (tableWord n w) = .ok i := by
  simp only [decodeTableWord, decodeBytes, bytesOfWord, wordOfBytes_bytesOfWord] at h
  cases hdecode : decode (tableWord n w) with
  | ok j => simpa [hdecode] using h
  | error e => simp [hdecode] at h

/-- The next tick fetches the placed word. -/
theorem fetch_placeWord {s : State} (hm : Rising s.mem) (hpc : s.pc.toNat < 0xFFF) (op : Word) :
    (s.placeWord op).fetch = some op := by
  have hclip : clip s.pc.toNat (bytesOfWord op) = bytesOfWord op := by
    refine List.take_of_length_le ?_
    simp only [bytesOfWord, List.length_cons, List.length_nil, Config.memSize]
    omega
  have hread {k : Nat} (hk : k < 2) : memGet (s.placeWord op).mem (s.pc.toNat + k) =
      (bytesOfWord op).getD k 0 :=
    (congrArg (fun bs => memGet (writeBytes s.mem s.pc.toNat bs) _) hclip).trans
      (memGet_writeBytes_add hm _ _ hk)
  rw [fetch_of_bytes (s := s.placeWord op) hpc (hread (k := 0) (by omega))
    (hread (k := 1) (by omega))]
  exact congrArg some (wordOfBytes_bytesOfWord op)

theorem quit_placeWord (s : State) (op : Word) : (s.placeWord op).now.quit = false := by
  rw [State.now, State.placeWord]
  cases s.inputs <;> rfl

/-- Settles O51: the placed word is fetched, and a Running tick runs it. -/
theorem placedWordIsRun : Obligations.PlacedWordIsRun :=
  fun s _ _ i hwf hpc htable hexec =>
    stepRunsDecodedInstruction _ _ _ i rfl (quit_placeWord s _) (fetch_placeWord hwf.rising hpc _)
      (decode_of_decodeTableWord htable) hexec

end Sys2Proof.Machine
end

section
/-! PROOFS. Fatal errors, Display requests and key events over a whole tick (60_exceptions.md R301
to R305, R313, R314). -/

namespace Sys2Proof.Machine

section
variable {i : Instr} {s t : State}

/-! ### Fatal errors -/

/-- No instruction raises the error of the ROM load (60_exceptions.md R307). -/
theorem ownFault_ne_romTooLarge : ownFault i s ≠ some .romTooLarge := by
  cases i with
  | call | ret | draw | storeBcd | storeRegs | loadRegs => simp [ownFault]
  | _ => exact nofun

/-- An instruction that passes its check neither halts nor records an error. -/
theorem run_and_fault_of_exec (hexec : exec i s = .next t) (hown : ownFault i s = none)
    (hrun : s.run ≠ .halted) : t.run ≠ .halted ∧ t.fault = s.fault := by
  obtain ⟨u, hu, -, -, -, hfault, hkeep⟩ | ⟨k, -, hsome⟩ := exec_cases i s
  · cases hexec.symm.trans hu
    obtain hsame | ⟨hwait, -, -⟩ := hkeep
    · exact ⟨hsame ▸ hrun, hfault⟩
    · exact ⟨by simp [hwait], hfault⟩
  · cases hown.symm.trans hsome

/-- The instruction cycle fails: at the fetch, at the dispatch or at the instruction's own check
(60_exceptions.md R305). -/
def CycleFails (s : State) : Prop :=
  s.fetch = none ∨ ∃ op, s.fetch = some op ∧
    ((∀ i, decode op ≠ .ok i) ∨ ∃ i, decode op = .ok i ∧ ownFault i s ≠ none)

/-- A decoded instruction that passes its check does not fail. -/
theorem not_cycleFails {op : Word} (hfetch : s.fetch = some op) (hdecode : decode op = .ok i)
    (hown : ownFault i s = none) : ¬ CycleFails s := by
  rintro (hnone | ⟨op', hfetch', hinvalid | ⟨j, hdecode', hfault⟩⟩)
  · cases hfetch.symm.trans hnone
  · cases hfetch.symm.trans hfetch'
    exact hinvalid i hdecode
  · cases hfetch.symm.trans hfetch'
    cases hdecode.symm.trans hdecode'
    exact hfault hown

/-- What an instruction cycle answers: when it fails, the fatal error with the fetched word, if
there is one; otherwise what the decoded instruction, whose check passes, answers. -/
theorem executeOne_answers (h : executeOne s = .next t) :
    (CycleFails s ∧ ∃ k, k ≠ .romTooLarge ∧ t = s.raise k s.fetch) ∨
    (¬ CycleFails s ∧ ∃ op i, s.fetch = some op ∧ decode op = .ok i ∧ ownFault i s = none ∧
      exec i s = .next t) := by
  obtain ⟨hfetch, hraise⟩ | ⟨op, hfetch, hinvalid, hraise⟩ | ⟨op, i, hfetch, hdecode, hexec⟩ :=
    executeOne_cases s
  · cases h.symm.trans hraise
    exact .inl ⟨.inl hfetch, .memoryOutOfRange, by decide, by rw [hfetch]⟩
  · cases h.symm.trans hraise
    exact .inl ⟨.inr ⟨op, hfetch, .inl hinvalid⟩, .invalidOpcode, by decide, by rw [hfetch]⟩
  · rw [hexec] at h
    cases hown : ownFault i s with
    | none => exact .inr ⟨not_cycleFails hfetch hdecode hown, op, i, hfetch, hdecode, hown, h⟩
    | some k =>
      cases h.symm.trans (exec_of_ownFault hown)
      refine .inl ⟨.inr ⟨op, hfetch, .inr ⟨i, hdecode, by simp [hown]⟩⟩, k, ?kind, ?word⟩
      case kind => exact fun e => ownFault_ne_romTooLarge (e ▸ hown)
      case word => rw [hfetch, (encodeOfDecode op i hdecode).2]

/-- A tick that starts in Running is a quit, or an instruction cycle and the end of the tick. -/
theorem running_step_cases (hrun : s.run = .running) (hstep : step s = .next t) :
    (s.now.quit = true ∧ t = { s with run := .halted }) ∨
    (s.now.quit = false ∧ ∃ u, executeOne s = .next u ∧ t = u.endTick s.now) := by
  obtain ⟨h, -⟩ | ⟨-, hq, h⟩ | ⟨-, hq, u, hexec, h⟩ | ⟨h, -⟩ := tick_cases s
  · cases hrun.symm.trans h
  · cases hstep.symm.trans h
    exact .inl ⟨hq, rfl⟩
  · cases hstep.symm.trans h
    exact .inr ⟨hq, u, hexec, rfl⟩
  · cases hrun.symm.trans h

end

/-- Settles O60: a failing cycle raises, which halts; an instruction that passes its check does
not halt. -/
theorem fatalErrorsExactlyWhen : Obligations.FatalErrorsExactlyWhen := by
  intro s t hrun hq hstep
  obtain ⟨hquit, -⟩ | ⟨-, u, hexec, rfl⟩ := running_step_cases hrun hstep
  · cases hq.symm.trans hquit
  · rw [State.endTick_run]
    change u.run = .halted ↔ CycleFails s
    obtain ⟨hfails, k, -, rfl⟩ | ⟨hgoes, op, i, -, -, hown, hu⟩ := executeOne_answers hexec
    · exact iff_of_true rfl hfails
    · exact iff_of_false (run_and_fault_of_exec hu hown (by simp [hrun])).1 hgoes

/-- Settles O59: of the ways a tick goes only a failing instruction cycle records an error. -/
theorem fatalErrorsArePrecise : Obligations.FatalErrorsArePrecise := by
  intro s t hstep hs ht
  obtain ⟨-, h⟩ | ⟨-, -, h⟩ | ⟨hrun, -, u, hexec, h⟩ | ⟨-, -, h⟩ := tick_cases s
  · cases hstep.symm.trans h
    exact absurd hs ht
  · cases hstep.symm.trans h
    exact absurd hs ht
  · cases hstep.symm.trans h
    obtain ⟨-, k, -, rfl⟩ | ⟨-, op, i, -, -, hown, hu⟩ := executeOne_answers hexec
    · exact ⟨k, State.endTick_of_halted (State.raise_run _ _ _) _⟩
    · have hfault := (run_and_fault_of_exec hu hown (by simp [hrun])).2
      rw [State.endTick_fault, hfault] at ht
      exact absurd hs ht
  · cases hstep.symm.trans h
    rw [State.endTick_fault, waitStep_eq] at ht
    exact absurd hs ht

/-! ### Display requests -/

section
variable {s t : State}

theorem displayRequest_of_not_running (h : s.run ≠ .running) : s.displayRequest = none := by
  simp [State.displayRequest, h]

theorem displayRequest_of_quit (h : s.now.quit = true) : s.displayRequest = none := by
  simp [State.displayRequest, h]

/-- A Running tick makes the request of its instruction, and none when its cycle fails before
there is one (40_cycle_and_dispatch.md R123). -/
theorem fb_of_executeOne (hrun : s.run = .running) (hq : s.now.quit = false)
    (hexec : executeOne s = .next t) : t.fb = displayed s.displayRequest s.fb := by
  obtain ⟨hfetch, hraise⟩ | ⟨op, hfetch, hinvalid, hraise⟩ | ⟨op, i, hfetch, hdecode, hx⟩ :=
    executeOne_cases s
  · cases hexec.symm.trans hraise
    simp [State.displayRequest, hrun, hq, hfetch, displayed]
  · cases hexec.symm.trans hraise
    cases hdecode : decode op with
    | ok i => exact absurd hdecode (hinvalid i)
    | error e => simp [State.displayRequest, hrun, hq, hfetch, hdecode, displayed]
  · have hreq : s.displayRequest = instrRequest i s := by
      simp [State.displayRequest, hrun, hq, hfetch, hdecode]
    rw [hreq]
    exact fb_of_exec (hx.symm.trans hexec)

theorem fb_of_step (hstep : step s = .next t) : t.fb = displayed s.displayRequest s.fb := by
  obtain ⟨hrun, h⟩ | ⟨-, hq, h⟩ | ⟨hrun, hq, u, hexec, h⟩ | ⟨hrun, -, h⟩ := tick_cases s
  · cases hstep.symm.trans h
    rw [displayRequest_of_not_running (by simp [hrun])]
    rfl
  · cases hstep.symm.trans h
    rw [displayRequest_of_quit hq]
    rfl
  · cases hstep.symm.trans h
    rw [State.endTick_fb]
    exact fb_of_executeOne hrun hq hexec
  · cases hstep.symm.trans h
    rw [displayRequest_of_not_running (by simp [hrun]), State.endTick_fb, waitStep_eq]
    rfl

end

/-- Settles O31: a tick without a request leaves the framebuffer, one with a request has the
Display perform it. -/
theorem framebufferFollowsRequests : Obligations.FramebufferFollowsRequests := by
  intro s t hstep
  rw [fb_of_step hstep]
  cases s.displayRequest <;> rfl

/-! ### Key events -/

/-- The state with another schedule. -/
def State.withInputs (s : State) (l : List TickInput) : State := { s with inputs := l }

section
variable {i : Instr} {s t : State} {l : List TickInput}

theorem pressed_withInputs (hkeys : (s.withInputs l).now.keys = s.now.keys) (v : Byte) :
    (s.withInputs l).pressed v = s.pressed v := by
  rw [State.pressed, State.pressed, hkeys]

/-- An instruction reads of the tick's inputs the held keys and the random byte only. -/
theorem exec_withInputs (hkeys : (s.withInputs l).now.keys = s.now.keys)
    (hrnd : (s.withInputs l).now.rnd = s.now.rnd) (hown : ownFault i s = none)
    (hexec : exec i s = .next t) : exec i (s.withInputs l) = .next (t.withInputs l) := by
  cases i with
  | ret =>
    obtain ⟨v, rest, hstack⟩ := List.exists_cons_of_ne_nil ((ownFault_ret_eq_none s).1 hown)
    cases hexec.symm.trans (exec_ret hstack)
    exact exec_ret hstack
  | call nnn =>
    have hroom := (ownFault_call_eq_none nnn s).1 hown
    cases hexec.symm.trans (exec_call hroom)
    exact exec_call hroom
  | storeBcd x =>
    have hfits := (ownFault_storeBcd_eq_none x s).1 hown
    cases hexec.symm.trans (exec_storeBcd hfits)
    exact exec_storeBcd hfits
  | storeRegs x =>
    have hfits := (ownFault_storeRegs_eq_none x s).1 hown
    cases hexec.symm.trans (exec_storeRegs hfits)
    exact exec_storeRegs hfits
  | loadRegs x =>
    have hfits := (ownFault_loadRegs_eq_none x s).1 hown
    cases hexec.symm.trans (exec_loadRegs hfits)
    exact exec_loadRegs hfits
  | draw x y n =>
    have hfits := (ownFault_draw_eq_none x y n s).1 hown
    cases hexec.symm.trans (exec_draw hfits)
    exact exec_draw hfits
  | ldVxK x =>
    cases hkey : lowestKey s.now.keys with
    | some k =>
      cases hexec.symm.trans (exec_ldVxK_of_held x s hkey)
      exact exec_ldVxK_of_held x (s.withInputs l) (hkeys ▸ hkey)
    | none =>
      cases hexec.symm.trans (exec_ldVxK_of_none x s hkey)
      exact exec_ldVxK_of_none x (s.withInputs l) (hkeys ▸ hkey)
  | rnd x nn =>
    cases hexec
    rw [exec_rnd, hrnd]
    rfl
  | skipKey x =>
    cases hexec
    rw [exec_skipKey, pressed_withInputs hkeys]
    rfl
  | skipNkey x =>
    cases hexec
    rw [exec_skipNkey, pressed_withInputs hkeys]
    rfl
  | _ =>
    cases hexec
    rfl

/-- The end of a tick uses up the first entry of the schedule, whatever it is. -/
theorem endTick_withInputs {inp inp' : TickInput} (hrun : t.run ≠ .halted)
    (htick : inp'.timerTick = inp.timerTick) (htail : l.tail = t.inputs.tail) :
    (t.withInputs l).endTick inp' = t.endTick inp := by
  have hrun' : (t.withInputs l).run ≠ .halted := hrun
  rw [endTick_of_not_halted hrun, endTick_of_not_halted hrun', htick, ← htail]
  rfl

end

/-- Settles O46: the tick runs the same instruction with the same keys and random byte, and its end
uses up the entry that differs. -/
theorem runningTickIgnoresKeyEvent : Obligations.RunningTickIgnoresKeyEvent := by
  intro s t inp rest e hrun hinputs hstep ht
  have hnow : s.now = inp := by rw [State.now, hinputs]
  obtain ⟨-, rfl⟩ | ⟨hq, u, hexec, rfl⟩ := running_step_cases hrun hstep
  · exact absurd rfl ht
  · rw [State.endTick_run] at ht
    obtain ⟨-, k, -, rfl⟩ | ⟨-, op, i, hfetch, hdecode, hown, hu⟩ := executeOne_answers hexec
    · exact absurd rfl ht
    · rw [hnow] at hq ⊢
      have hinputs' : u.inputs = inp :: rest := (frame_of_exec hu hown).inputs.1.trans hinputs
      have hu' := exec_withInputs (l := { inp with keyEvent := e } :: rest)
        (by rw [hnow]; rfl) (by rw [hnow]; rfl) hown hu
      have hstep' := stepRunsDecodedInstruction _ _ op i
        (by exact hrun) (by exact hq) (by exact hfetch) hdecode hu'
      exact hstep'.trans (congrArg _ (endTick_withInputs ht rfl (by rw [hinputs']; rfl)))

end Sys2Proof.Machine
end

section
/-! PROOFS. The invariant (10_state.md R25 to R30, 20_memory.md R50, 60_exceptions.md R302, R303):
at reset, after the ROM load, and over every step. -/

namespace Sys2Proof.Machine

/-! ### The ranges

The part of the invariant that does not speak of the fault record: an instruction keeps it on its
way, where the fault record's `PC` clause does not hold. -/

/-- Memory canonical, `PC`, `I` and the stack in range. -/
structure Ranges (s : State) : Prop where
  memWf : Memory.wf s.mem
  pcRange : s.pc.toNat < 0x1000
  iRange : s.i.toNat < 0x1000
  depth : s.stack.length ≤ 16
  stackRange : ∀ v ∈ s.stack, v.toNat < 0x1000

section
variable {i : Instr} {s t : State}

theorem Inv.ranges (h : Inv s) : Ranges s :=
  ⟨h.memWf, h.pcRange, h.iRange, h.depth, h.stackRange⟩

theorem Ranges.inv (h : Ranges s)
    (hfault : ∀ r, s.fault = some r → s.run = .halted ∧ r.pc = s.pc ∧ r.kind ≠ .romTooLarge) :
    Inv s :=
  ⟨h.memWf, h.pcRange, h.iRange, h.depth, h.stackRange, hfault⟩

theorem Ranges.inv_of_no_fault (h : Ranges s) (hfault : s.fault = none) : Inv s :=
  h.inv fun r hr => by cases hfault.symm.trans hr

/-- An invariant state that has not halted has no fault record. -/
theorem Inv.fault_eq_none (h : Inv s) (hrun : s.run ≠ .halted) : s.fault = none := by
  cases hfault : s.fault with
  | none => rfl
  | some r => exact absurd (h.faultHalted r hfault).1 hrun

/-! ### The operations -/

theorem Ranges.advance (h : Ranges s) : Ranges s.advance :=
  ⟨h.memWf, wrap12_lt _, h.iRange, h.depth, h.stackRange⟩

theorem Ranges.setPc (h : Ranges s) {v : Word} (hv : v.toNat < 0x1000) : Ranges (s.setPc v) :=
  ⟨h.memWf, hv, h.iRange, h.depth, h.stackRange⟩

theorem Ranges.setI (h : Ranges s) {v : Word} (hv : v.toNat < 0x1000) : Ranges (s.setI v) :=
  ⟨h.memWf, h.pcRange, hv, h.depth, h.stackRange⟩

theorem Ranges.skipIf (h : Ranges s) (c : Bool) : Ranges (s.advance.skipIf c) := by
  refine h.setPc ?_
  split <;> exact wrap12_lt _

theorem Ranges.push (h : Ranges s) (hroom : s.stack.length < 16) {v : Word}
    (hv : v.toNat < 0x1000) : Ranges { s with stack := v :: s.stack } :=
  ⟨h.memWf, h.pcRange, h.iRange, hroom, List.forall_mem_cons.2 ⟨hv, h.stackRange⟩⟩

/-- A pop gives an address in range and leaves a stack in range. -/
theorem Ranges.pop (h : Ranges s) {v : Word} {rest : List Word} (hstack : s.stack = v :: rest) :
    v.toNat < 0x1000 ∧ Ranges { s with stack := rest } := by
  have hrange := h.stackRange
  have hdepth := h.depth
  rw [hstack] at hrange hdepth
  obtain ⟨hv, hrest⟩ := List.forall_mem_cons.1 hrange
  exact ⟨hv, h.memWf, h.pcRange, h.iRange, Nat.le_of_succ_le hdepth, hrest⟩

theorem Ranges.writeBytes (h : Ranges s) {base : Nat} {bs : List Byte}
    (hfits : base + bs.length ≤ 0x1000) :
    Ranges { s with mem := Machine.writeBytes s.mem base bs } :=
  ⟨h.memWf.writeBytes bs base hfits, h.pcRange, h.iRange, h.depth, h.stackRange⟩

/-- What writes none of the four fields keeps the ranges. -/
theorem Ranges.congr (h : Ranges s) (hmem : t.mem = s.mem) (hpc : t.pc = s.pc) (hi : t.i = s.i)
    (hstack : t.stack = s.stack) : Ranges t := by
  obtain ⟨hwf, hpcr, hir, hdepth, hsr⟩ := h
  exact ⟨hmem ▸ hwf, hpc ▸ hpcr, hi ▸ hir, hstack ▸ hdepth, hstack ▸ hsr⟩

/-! ### The instructions -/

/-- An instruction whose own check passes keeps the ranges. -/
theorem Ranges.exec (h : Ranges s) (hown : ownFault i s = none) (hexec : exec i s = .next t) :
    Ranges t := by
  cases i with
  | ret =>
    obtain ⟨v, rest, hstack⟩ := List.exists_cons_of_ne_nil ((ownFault_ret_eq_none s).1 hown)
    cases hexec.symm.trans (exec_ret hstack)
    obtain ⟨hv, hrest⟩ := h.advance.pop hstack
    exact hrest.setPc hv
  | call nnn =>
    have hroom := (ownFault_call_eq_none nnn s).1 hown
    cases hexec.symm.trans (exec_call hroom)
    exact (h.advance.push hroom h.advance.pcRange).setPc (addrWord_lt nnn)
  | storeBcd x =>
    have hfits := (ownFault_storeBcd_eq_none x s).1 hown
    cases hexec.symm.trans (exec_storeBcd hfits)
    exact h.advance.writeBytes (by rw [length_bcdDigits]; omega)
  | storeRegs x =>
    have hfits := (ownFault_storeRegs_eq_none x s).1 hown
    cases hexec.symm.trans (exec_storeRegs hfits)
    exact h.advance.writeBytes (by rw [length_regsUpTo]; omega)
  | loadRegs x =>
    cases hexec.symm.trans (exec_loadRegs ((ownFault_loadRegs_eq_none x s).1 hown))
    exact h.advance.congr rfl rfl rfl rfl
  | draw x y n =>
    cases hexec.symm.trans (exec_draw ((ownFault_draw_eq_none x y n s).1 hown))
    exact h.advance.congr rfl rfl rfl rfl
  | ldVxK x =>
    cases hkey : lowestKey s.now.keys with
    | some k =>
      cases hexec.symm.trans (exec_ldVxK_of_held x s hkey)
      exact h.advance.congr rfl rfl rfl rfl
    | none =>
      cases hexec.symm.trans (exec_ldVxK_of_none x s hkey)
      exact h.advance.congr rfl rfl rfl rfl
  | jmp nnn =>
    cases hexec
    exact h.advance.setPc (addrWord_lt nnn)
  | jmpV0 nnn =>
    cases hexec
    exact h.advance.setPc (wrap12_lt _)
  | movI nnn =>
    cases hexec
    exact h.advance.setI (addrWord_lt nnn)
  | addI x =>
    cases hexec
    exact h.advance.setI (wrap12_lt _)
  | ldIFont x =>
    cases hexec
    refine h.advance.setI ?_
    rw [toNat_glyphAddress_fontDigit]
    omega
  | skipEqImm | skipNeImm | skipEqReg | skipNeReg | skipKey | skipNkey =>
    cases hexec
    exact h.skipIf _
  | _ =>
    cases hexec
    exact h.advance.congr rfl rfl rfl rfl

/-! ### The tick -/

/-- A fatal error leaves `PC` at the address it records and halts (60_exceptions.md R302, R303). -/
theorem Inv.raise (h : Inv s) {k : ErrorKind} (hk : k ≠ .romTooLarge) (o : Option Word) :
    Inv (s.raise k o) := by
  refine Ranges.inv (h.ranges.congr rfl rfl rfl rfl) fun r hr => ?_
  cases hr
  exact ⟨rfl, rfl, hk⟩

/-- A quit halts, which the fault record allows (40_cycle_and_dispatch.md R112). -/
theorem Inv.quit (h : Inv s) : Inv { s with run := .halted } :=
  Ranges.inv (h.ranges.congr rfl rfl rfl rfl) fun r hr => ⟨rfl, (h.faultHalted r hr).2⟩

theorem Inv.endTick (h : Inv s) (inp : TickInput) : Inv (s.endTick inp) := by
  refine (h.ranges.congr (s.endTick_mem inp) (s.endTick_pc inp) (s.endTick_i inp)
    (s.endTick_stack inp)).inv ?_
  rw [State.endTick_fault, State.endTick_run, State.endTick_pc]
  exact h.faultHalted

theorem Inv.waitStep (h : Inv s) (hrun : s.run ≠ .halted) (e : Option Key) :
    Inv (s.waitStep e) := by
  rw [waitStep_eq]
  exact Ranges.inv_of_no_fault (h.ranges.congr rfl rfl rfl rfl) (h.fault_eq_none hrun)

/-- An instruction cycle raises an error, or runs an instruction that records none. -/
theorem Inv.executeOne (h : Inv s) (hrun : s.run ≠ .halted)
    (hexec : executeOne s = .next t) : Inv t := by
  obtain ⟨-, k, hk, rfl⟩ | ⟨-, op, i, -, -, hown, hi⟩ := executeOne_answers hexec
  · exact h.raise hk s.fetch
  · have hfault := (run_and_fault_of_exec hi hown hrun).2
    exact (h.ranges.exec hown hi).inv_of_no_fault (hfault.trans (h.fault_eq_none hrun))

end

/-- Settles O56: each of the four ways a tick goes keeps the invariant. -/
theorem stepKeepsInvariant : Obligations.StepKeepsInvariant := by
  intro s t hinv hstep
  obtain ⟨-, h⟩ | ⟨-, -, h⟩ | ⟨hrun, -, u, hexec, h⟩ | ⟨hrun, -, h⟩ := tick_cases s
  · cases hstep.symm.trans h
    exact hinv
  · cases hstep.symm.trans h
    exact hinv.quit
  · cases hstep.symm.trans h
    exact (hinv.executeOne (by simp [hrun]) hexec).endTick _
  · cases hstep.symm.trans h
    exact (hinv.waitStep (by simp [hrun]) _).endTick _

/-! ### Reset and load -/

/-- Memory of reset lists nothing, so it is canonical. -/
theorem ranges_reset : Ranges State.reset :=
  ⟨⟨rising_reset, by simp [State.reset]⟩, by decide, by decide, by decide, by simp [State.reset]⟩

/-- Settles O54: the ranges hold and there is no fault record. -/
theorem resetMeetsInvariant : Obligations.ResetMeetsInvariant := ranges_reset.inv_of_no_fault rfl

/-- Settles O55: an image that is not refused is stored inside memory. -/
theorem bootMeetsInvariant : Obligations.BootMeetsInvariant := by
  intro rom inputs t hboot
  by_cases hfits : rom.length ≤ 3584
  · cases hboot.symm.trans (boot_of_fits hfits inputs)
    have hloaded := ranges_reset.writeBytes (base := 0x200) (bs := rom) (by omega)
    exact Ranges.inv_of_no_fault (hloaded.congr rfl rfl rfl rfl) rfl
  · cases hboot.symm.trans (boot_of_too_large (Nat.not_le.1 hfits) inputs)

/-- Memory of reset is 0 off the font (20_memory.md R69). -/
theorem resetByte_off_font {a : Nat} (h : a < 0x050 ∨ 0x0A0 ≤ a) : resetByte a = 0 := by
  obtain hbelow | habove := h
  · exact if_neg (Nat.not_le.2 hbelow)
  · exact resetByte_of_font_end_le habove

/-- Settles O52: the registers, the pixels and the memory off the font hold their value everywhere;
the other fields and the 16 glyphs are evaluated. -/
theorem resetLeavesTheseValues : Obligations.ResetLeavesTheseValues := by
  refine ⟨fun r => ?regs, rfl, rfl, rfl, rfl, rfl, fbGet_blank, rfl, rfl, rfl,
    fun a ha => resetByte_off_font ha, ?glyphs⟩
  case regs => exact Vector.getElem_replicate _
  case glyphs => decide

end Sys2Proof.Machine
end
